-- ==== Sys2Proof/Word.lean ====
section
/-! DEFINITION. The word type: every field of a frame, every command word and every array element is one byte. -/

namespace Sys2Proof

/-- A byte: an 8-bit unsigned value (00_scope.md R12). -/
abbrev Byte := BitVec 8

end Sys2Proof
end

