-- ==== Sys2Proof/Config.lean ====
section
/-! DEFINITION. What an instance fixes at its creation (00_scope.md R6 to R8, 10_state.md R28), and the free values. -/

namespace Sys2Proof

/-- The configuration of one codec instance, read-only once the instance exists (10_state.md R28). -/
structure Config where
  /-- `N`, the record size in bytes, 8 bits wide; 0 is refused (00_scope.md R6). -/
  n : Byte
  /-- `START1_MIN_AVAIL`, at least 1 (00_scope.md R7). -/
  minAvail : Nat
  /-- `RETEST_ON_START2_FAIL` (00_scope.md R8). -/
  retest : Bool
  deriving DecidableEq, Repr

/-- `N` as a number of bytes. -/
def Config.size (c : Config) : Nat := c.n.toNat

/-- `FRAME_LEN = N + 4` (00_scope.md R10). -/
def Config.frameLen (c : Config) : Nat := c.size + 4

/-- The default of `START1_MIN_AVAIL` (00_scope.md R7). -/
def Config.defaultMinAvail : Nat := 3

/-- The default of `RETEST_ON_START2_FAIL` (00_scope.md R8). -/
def Config.defaultRetest : Bool := false

/-- The configuration of the instance the reset state holds. DESIGN CHOICE (log 1): `N` has no default in the spec, and 4
is the size its worked examples use; the other two fields are the spec's defaults. -/
def Config.atReset : Config := { n := 4, minAvail := Config.defaultMinAvail, retest := Config.defaultRetest }

/-- The `k`-th free byte: what `rx_buf` and `record_out` hold when a CONFIG statement creates an instance, which the spec
leaves unspecified (10_state.md R35; 93_implementation_defined.md U7, U8). It has no body: nothing can be proved of it. Two instances
whose counters agree get the same free bytes: the model's own tie (log 3). -/
opaque Config.freeByte : Nat → Byte

/-- The `i`-th group of the `k`-th free stream: what an environment whose endless appends follow no given pattern appends before a step
(20_memory.md R53; 43_decoder_ops.md R157; log 8). It has no body: a claim about such an environment holds for every sequence of
groups. -/
opaque Config.freeArrival : Nat → Nat → List Byte

end Sys2Proof
end

