-- ==== Sys2Proof/Syntax.lean ====
section
/-! DEFINITION. The instructions (one constructor for every row of spec/opcode_table.json), the decoder's states, the names of
the transitions, and the statements of the caller's command script. -/

namespace Sys2Proof

/-- The four values of the decoder state register `st` (10_state.md R20). FRAME_COMPLETE and FRAME_ERROR are outcomes of a
transition and never held. -/
inductive DecState where
  | start1   -- AWAITING_START1
  | start2   -- AWAITING_START2
  | length   -- AWAITING_LENGTH
  | payload  -- AWAITING_PAYLOAD
  deriving DecidableEq, Repr

/-- The instructions: the three commands, the seven rows of reserved command words, and FEED's ten micro-instructions
(00_scope.md R3). A reserved row carries the whole word; a transition whose key leaves the byte open carries the byte. -/
inductive Instr where
  | reset
  | encode
  | feed
  | reservedOp3 (word : Byte)
  | reservedBit2 (word : Byte)
  | reservedBit3 (word : Byte)
  | reservedBit4 (word : Byte)
  | reservedBit5 (word : Byte)
  | reservedBit6 (word : Byte)
  | reservedBit7 (word : Byte)
  | s1Match
  | s1Skip (b : Byte)
  | s2Match
  | s2Retest
  | s2Fail (b : Byte)
  | lenOk (b : Byte)
  | lenBad (b : Byte)
  | payStore (b : Byte)
  | payCsOk (b : Byte)
  | payCsBad (b : Byte)
  deriving DecidableEq, Repr

/-- The names of the ten transitions (30_encoding.md R79). -/
inductive Transition where
  | s1Match | s1Skip | s2Match | s2Retest | s2Fail | lenOk | lenBad | payStore | payCsOk | payCsBad
  deriving DecidableEq, Repr

/-- The instruction a transition is, on the byte `b`. -/
def Transition.instr : Transition → Byte → Instr
  | .s1Match, _ => .s1Match
  | .s1Skip, b => .s1Skip b
  | .s2Match, _ => .s2Match
  | .s2Retest, _ => .s2Retest
  | .s2Fail, b => .s2Fail b
  | .lenOk, b => .lenOk b
  | .lenBad, b => .lenBad b
  | .payStore, b => .payStore b
  | .payCsOk, b => .payCsOk b
  | .payCsBad, b => .payCsBad b

/-- The operands the caller writes beside an ENCODE word (30_encoding.md R76, 41_encoder.md R110). -/
structure Operands where
  /-- `rec_in`. -/
  record : List Byte
  /-- `C`, an unsigned capacity of any width (log 6). -/
  cap : Nat
  /-- A new destination buffer holding these bytes; `none` lends the buffer lent before. -/
  buffer : Option (List Byte)
  deriving DecidableEq, Repr

/-- A statement of the command script (30_encoding.md R81, R82). RESET, ENCODE and FEED are `command` with their words. -/
inductive Stmt where
  /-- `CONFIG N=<n> [MIN=<k>] [RETEST=<0or1>]`: creates an instance, whose byte source holds `src`. -/
  | config (n : Byte) (minAvail : Option Nat) (retest : Option Bool) (src : List Byte)
  /-- A command word, with the operands written beside it. -/
  | command (word : Byte) (operands : Option Operands)
  /-- `PUSH [<bytes>]`: the environment appends the bytes to `src`. -/
  | push (bytes : List Byte)
  /-- `PUSHDST`: the environment appends `dst[0..N+4)` to `src`. -/
  | pushDst
  /-- `DRAIN <k>`: at most `k` FEEDs, up to the first `NeedMoreData`. -/
  | drain (k : Nat)
  deriving DecidableEq, Repr

end Sys2Proof
end

