-- ==== Sys2Proof/WellFormed.lean ====
section
/-! DEFINITION. Which configurations, instructions, operands and statements are well formed. -/

namespace Sys2Proof

/-- A legal configuration (00_scope.md R6, R7; 10_state.md R28). -/
def Config.wf (c : Config) : Bool := c.n != 0 && decide (1 ≤ c.minAvail)

/-- No bit of the word below `k` and from bit 2 upward is set, and the selector is not `0b11`: no RESERVED row before
RESERVED_BIT`k` matches the word. -/
def noEarlierRow (w : Byte) (k : Nat) : Bool :=
  w.extractLsb' 0 2 != 3#2 && (List.range k).all fun j => decide (j < 2) || !w.getLsbD j

/-- The fields of an instruction lie where its row of the opcode table puts them (30_encoding.md R78, R79). -/
def Instr.wf : Instr → Bool
  | .reset => true
  | .encode => true
  | .feed => true
  | .reservedOp3 w => w.extractLsb' 0 2 == 3#2
  | .reservedBit2 w => w.getLsbD 2 && noEarlierRow w 2
  | .reservedBit3 w => w.getLsbD 3 && noEarlierRow w 3
  | .reservedBit4 w => w.getLsbD 4 && noEarlierRow w 4
  | .reservedBit5 w => w.getLsbD 5 && noEarlierRow w 5
  | .reservedBit6 w => w.getLsbD 6 && noEarlierRow w 6
  | .reservedBit7 w => w.getLsbD 7 && noEarlierRow w 7
  | .s1Match => true
  | .s1Skip b => b != 0x06
  | .s2Match => true
  | .s2Retest => true
  | .s2Fail b => b != 0x85
  | .lenOk b => b != 0
  | .lenBad _ => true
  | .payStore _ => true
  | .payCsOk _ => true
  | .payCsBad _ => true

/-- ENCODE's operands for a record size `n`: the record is exactly `N` bytes (41_encoder.md R114). -/
def Operands.wf (n : Byte) (o : Operands) : Bool := o.record.length == n.toNat

/-- A statement an instance of record size `n` runs without a refusal: CONFIG with legal parameters (60_exceptions.md R184),
a command word that is not reserved (30_encoding.md R78), and operands beside ENCODE's word alone. -/
def Stmt.wf (n : Byte) : Stmt → Bool
  | .config n' k _ _ => n' != 0 && decide (1 ≤ k.getD Config.defaultMinAvail)
  | .command w none => w == 0x00 || w == 0x02
  | .command w (some o) => w == 0x01 && o.wf n
  | .push _ => true
  | .pushDst => true
  | .drain _ => true

end Sys2Proof
end

