-- ==== Sys2Proof/Decode.lean ====
section
/-! DEFINITION. Decoding and encoding: command words (30_encoding.md R74, R75, R78), the wire constants (R9), and the key of the
state machine (R79). -/

namespace Sys2Proof

/-- `MARK0` (00_scope.md R9). -/
def mark0 : Byte := 0x06

/-- `MARK1` (00_scope.md R9). -/
def mark1 : Byte := 0x85

/-! ### Command words -/

/-- `cmd[1:0]`, the operation selector (30_encoding.md R74). -/
def opField (w : Byte) : BitVec 2 := w.extractLsb' 0 2

/-- `cmd[7:2]`, which must be zero (30_encoding.md R74). -/
def zeroField (w : Byte) : BitVec 6 := w.extractLsb' 2 6

/-- The command a word stands for. A word of the reserved space is read as the first RESERVED row of the opcode table that
matches it (30_encoding.md R75, R78; log 11). -/
def decodeCommand (w : Byte) : Instr :=
  if opField w = 3#2 then .reservedOp3 w
  else if w.getLsbD 2 then .reservedBit2 w
  else if w.getLsbD 3 then .reservedBit3 w
  else if w.getLsbD 4 then .reservedBit4 w
  else if w.getLsbD 5 then .reservedBit5 w
  else if w.getLsbD 6 then .reservedBit6 w
  else if w.getLsbD 7 then .reservedBit7 w
  else if opField w = 2#2 then .feed
  else if opField w = 1#2 then .encode
  else .reset

/-- Why a sequence of bytes holds no command. -/
inductive DecodeError where
  /-- There is no byte. -/
  | noWord
  deriving DecidableEq, Repr

/-- The command at the head of a program's encoding, and the words after it (30_encoding.md R81: a program's encoding is the
sequence of its command words). -/
def decodeBytes : List Byte → Except DecodeError (Instr × List Byte)
  | [] => .error .noWord
  | w :: rest => .ok (decodeCommand w, rest)

/-! ### The key of the state machine -/

/-- The two bits of a decoder state (10_state.md R20). -/
def DecState.code : DecState → BitVec 2
  | .start1 => 0b00#2
  | .start2 => 0b01#2
  | .length => 0b10#2
  | .payload => 0b11#2

/-- The decoder state two bits stand for. -/
def DecState.ofCode (c : BitVec 2) : DecState :=
  if c = 0b00#2 then .start1 else if c = 0b01#2 then .start2 else if c = 0b10#2 then .length else .payload

/-- The 10-bit decode key `st ++ b` (30_encoding.md R79). -/
abbrev Key := BitVec 10

/-- `key = st[1:0] ++ b[7:0]`. -/
def makeKey (st : DecState) (b : Byte) : Key := st.code ++ b

/-- `key[9:8]`. -/
def keyState (k : Key) : DecState := DecState.ofCode (k.extractLsb' 8 2)

/-- `key[7:0]`. -/
def keyByte (k : Key) : Byte := k.extractLsb' 0 8

/-- What the extra conditions of the transition table look at besides the key (30_encoding.md R79). -/
structure KeyContext where
  /-- `N`. -/
  n : Byte
  /-- `RETEST_ON_START2_FAIL`. -/
  retest : Bool
  /-- After storing the byte, `fill_count <= expected_length`. -/
  storeFits : Bool
  /-- After storing the byte, the computed checksum equals `rx_buf[expected_length]`. -/
  checksumMatches : Bool
  deriving DecidableEq, Repr

/-- Which transition a key selects (30_encoding.md R79; 42_decoder_fsm.md R121 to R128, R132). -/
def decodeTransition (c : KeyContext) (k : Key) : Transition :=
  match keyState k with
  | .start1 => if keyByte k = mark0 then .s1Match else .s1Skip
  | .start2 =>
    if keyByte k = mark1 then .s2Match
    else if keyByte k = mark0 ∧ c.retest = true then .s2Retest
    else .s2Fail
  | .length => if keyByte k = c.n then .lenOk else .lenBad
  | .payload => if c.storeFits then .payStore else if c.checksumMatches then .payCsOk else .payCsBad

/-- The micro-instruction a key selects. -/
def decodeKey (c : KeyContext) (k : Key) : Instr := (decodeTransition c k).instr (keyByte k)

/-- A row of the opcode table for a transition: the key bits it fixes. -/
structure KeyRow where
  mask : Key
  pattern : Key
  deriving DecidableEq, Repr

/-- The mask and match of each transition row of spec/opcode_table.json. -/
def Transition.row : Transition → KeyRow
  | .s1Match => ⟨1023, 6⟩
  | .s1Skip => ⟨768, 0⟩
  | .s2Match => ⟨1023, 389⟩
  | .s2Retest => ⟨1023, 262⟩
  | .s2Fail => ⟨768, 256⟩
  | .lenOk => ⟨768, 512⟩
  | .lenBad => ⟨768, 512⟩
  | .payStore => ⟨768, 768⟩
  | .payCsOk => ⟨768, 768⟩
  | .payCsBad => ⟨768, 768⟩

/-- The extra condition of each transition row (30_encoding.md R79 and the table's "condition"). -/
def Transition.condition (c : KeyContext) (b : Byte) : Transition → Bool
  | .s1Match => true
  | .s1Skip => b != mark0
  | .s2Match => true
  | .s2Retest => c.retest
  | .s2Fail => b != mark1 && !(b == mark0 && c.retest)
  | .lenOk => b == c.n
  | .lenBad => b != c.n
  | .payStore => c.storeFits
  | .payCsOk => !c.storeFits && c.checksumMatches
  | .payCsBad => !c.storeFits && !c.checksumMatches

/-- The row selects the key: its pattern matches and its condition holds. -/
def Transition.selects (c : KeyContext) (k : Key) (t : Transition) : Bool :=
  (k &&& t.row.mask) == t.row.pattern && t.condition c (keyByte k)

/-- The transition rows, in the table's order. -/
def Transition.all : List Transition :=
  [.s1Match, .s1Skip, .s2Match, .s2Retest, .s2Fail, .lenOk, .lenBad, .payStore, .payCsOk, .payCsBad]

/-! ### Encoding -/

/-- What an instruction is encoded as: a command word, or a key of the state machine. -/
inductive Encoded where
  | command (word : Byte)
  | key (key : Key)
  deriving DecidableEq, Repr

/-- The encoding of an instruction (30_encoding.md R75, R78, R79). -/
def encode : Instr → Encoded
  | .reset => .command 0x00
  | .encode => .command 0x01
  | .feed => .command 0x02
  | .reservedOp3 w => .command w
  | .reservedBit2 w => .command w
  | .reservedBit3 w => .command w
  | .reservedBit4 w => .command w
  | .reservedBit5 w => .command w
  | .reservedBit6 w => .command w
  | .reservedBit7 w => .command w
  | .s1Match => .key (makeKey .start1 0x06)
  | .s1Skip b => .key (makeKey .start1 b)
  | .s2Match => .key (makeKey .start2 0x85)
  | .s2Retest => .key (makeKey .start2 0x06)
  | .s2Fail b => .key (makeKey .start2 b)
  | .lenOk b => .key (makeKey .length b)
  | .lenBad b => .key (makeKey .length b)
  | .payStore b => .key (makeKey .payload b)
  | .payCsOk b => .key (makeKey .payload b)
  | .payCsBad b => .key (makeKey .payload b)

/-- Decodes either kind of word; a key is read in the context `c`. -/
def decodeEncoded (c : KeyContext) : Encoded → Instr
  | .command w => decodeCommand w
  | .key k => decodeKey c k

/-- The condition of the table's row on the context, for an instruction that is a transition; a command has none. -/
def Instr.condition (c : KeyContext) : Instr → Bool
  | .s1Match => Transition.condition c mark0 .s1Match
  | .s1Skip b => Transition.condition c b .s1Skip
  | .s2Match => Transition.condition c mark1 .s2Match
  | .s2Retest => Transition.condition c mark0 .s2Retest
  | .s2Fail b => Transition.condition c b .s2Fail
  | .lenOk b => Transition.condition c b .lenOk
  | .lenBad b => Transition.condition c b .lenBad
  | .payStore b => Transition.condition c b .payStore
  | .payCsOk b => Transition.condition c b .payCsOk
  | .payCsBad b => Transition.condition c b .payCsBad
  | .reset => true
  | .encode => true
  | .feed => true
  | .reservedOp3 _ => true
  | .reservedBit2 _ => true
  | .reservedBit3 _ => true
  | .reservedBit4 _ => true
  | .reservedBit5 _ => true
  | .reservedBit6 _ => true
  | .reservedBit7 _ => true

/-- The command words of a script statement (30_encoding.md R81: an environment action and CONFIG have no encoding). A DRAIN is
the FEED words it issued, `issued` of them and at most its bound (R82). -/
def Stmt.words (issued : Nat) : Stmt → List Byte
  | .command w _ => [w]
  | .config _ _ _ _ => []
  | .push _ => []
  | .pushDst => []
  | .drain k => List.replicate (min k issued) 0x02

/-! ### Words of the opcode table -/

/-- The context a key of the opcode table is read in: the reset configuration, the re-test option taken as on so that the row
S2_RETEST is reachable, and a frame of which nothing is stored yet (log 14). -/
def tableContext : KeyContext :=
  { n := Config.atReset.n, retest := true, storeFits := true, checksumMatches := false }

/-- The instruction read from a word of the opcode table: a command word (up to 8 bits), or a decode key (10 bits, 16 in whole
bytes). -/
def decodeTableWord (nbits w : Nat) : Option Instr :=
  if nbits ≤ 8 then
    if w < 256 then some (decodeCommand (BitVec.ofNat 8 w)) else none
  else if nbits ≤ 16 then
    if w < 1024 then some (decodeKey tableContext (BitVec.ofNat 10 w)) else none
  else none

end Sys2Proof
end

