-- ==== Sys2Proof/Machine/State.lean ====
section
/-! DEFINITION. The state of one codec instance and the world beside it, as plain data (10_state.md), its value at reset, and the
reasons a step can stop. -/

namespace Sys2Proof.Machine

/-- The caller's destination buffer as cells in one canonical form: indices strictly rising, and no cell that holds what an
unlisted index reads as (20_memory.md R60: the array is named, not placed, so its addresses are its indices). -/
abbrev Memory := List Host.Cell

/-- The results a command gives its caller (30_encoding.md R77). FrameReady carries the record (43_decoder_ops.md R154). -/
inductive Output where
  | needMoreData
  | frameReady (record : List Byte)
  | sizeMismatch
  | checksumMismatch
  | encodeOk
  | bufferTooSmall
  | resetDone
  deriving DecidableEq, Repr

/-- The outcomes of one transition of the state machine (42_decoder_fsm.md R120). -/
inductive FrameOutcome where
  /-- The frame is not finished. -/
  | unfinished
  /-- FRAME_COMPLETE. -/
  | complete
  /-- FRAME_ERROR from a bad length. -/
  | errSize
  /-- FRAME_ERROR from a bad checksum. -/
  | errChecksum
  deriving DecidableEq, Repr

/-- How the environment's appends go on for ever. -/
inductive LaterArrivals where
  /-- These groups, one before each step, over and over; none at all where the list is empty. -/
  | cycle (groups : List (List Byte))
  /-- The groups of a free stream from the `next`-th on: any endless sequence at all (`Config.freeArrival`). -/
  | free (stream next : Nat)
  deriving DecidableEq, Repr

/-- What the environment will append to the byte source: the groups of `soon`, one before each step, and after them those of
`later` (20_memory.md R53; 43_decoder_ops.md R157, R158; log 8). -/
structure Arrivals where
  soon : List (List Byte)
  later : LaterArrivals
  deriving DecidableEq, Repr

/-- Nothing is to come. -/
def Arrivals.nothing : Arrivals := { soon := [], later := .cycle [] }

/-- The arrays of the block that have fixed bounds (10_state.md R24, R25). -/
inductive ArrayName where
  | rxBuf
  | recordOut
  deriving DecidableEq, Repr

/-- The machine: the block's registers and arrays (10_state.md R29), the byte source (R34), and the caller's side of the
operation interface (30_encoding.md R77, R81). -/
structure State where
  /-- The decoder state register `st`, 2 bits (R20). -/
  st : DecState
  /-- `expected_length`, 8 bits (R22). -/
  expectedLength : BitVec 8
  /-- `fill_count`, 9 bits (R23). -/
  fillCount : BitVec 9
  /-- `rx_buf`, `N + 1` bytes (R24). -/
  rxBuf : List Byte
  /-- `record_out`, `N` bytes (R25). -/
  recordOut : List Byte
  /-- `rec_in`, ENCODE's record operand (R26). -/
  recIn : List Byte
  /-- `dst`, ENCODE's destination buffer (R27). -/
  dst : Memory
  /-- `C`, ENCODE's capacity operand (R27; 30_encoding.md R76; log 6). -/
  cap : Nat
  /-- The configuration (R28). -/
  cfg : Config
  /-- `src`, the contents of the byte source, oldest first (R34). -/
  src : List Byte
  /-- The environment's appends still to come (20_memory.md R53). -/
  arrivals : Arrivals
  /-- A FEED is in progress, between two of its micro-steps (43_decoder_ops.md R157). -/
  feeding : Bool
  /-- The FEED in progress belongs to a DRAIN, which may issue this many more (30_encoding.md R82). -/
  drainLeft : Option Nat
  /-- The statements the caller has still to issue, first one first (30_encoding.md R81). -/
  script : List Stmt
  /-- The results given so far, oldest first (30_encoding.md R77). No command reads them (10_state.md R30). -/
  outputs : List Output
  /-- How many free bytes have been used (the model's own field; log 3). -/
  fresh : Nat
  deriving DecidableEq, Repr

/-- The machine right after reset: a newly created instance (10_state.md R35; 70_reset_and_hazards.md R210) with an empty byte
source and nothing issued. The spec gives `st`, `expectedLength` and `fillCount` and the defaults of two configuration fields;
every other value is the model's own (logs 1, 2, 4, 5, 8, 9, 10). -/
def State.reset : State :=
  { st := .start1
    expectedLength := 0
    fillCount := 0
    rxBuf := List.replicate (Config.atReset.size + 1) 0
    recordOut := List.replicate Config.atReset.size 0
    recIn := List.replicate Config.atReset.size 0
    dst := []
    cap := 0
    cfg := Config.atReset
    src := []
    arrivals := Arrivals.nothing
    feeding := false
    drainLeft := none
    script := []
    outputs := []
    fresh := 0 }

/-- The reasons a step stops with a fault. -/
inductive Fault where
  /-- An access outside the bounds of a fixed array (10_state.md R24, R25). Raised by PAY_STORE, PAY_CS_OK and PAY_CS_BAD, and
  only in states that break the invariants R31 and R32; safe (log 12). -/
  | arrayIndex (array : ArrayName)
  deriving DecidableEq, Repr

/-- The reasons an instruction is refused (60_exceptions.md R184). Each is safe: a run that holds one proves nothing. -/
inductive Refusal where
  /-- An instruction the model gives no meaning yet; exec's arm raises it. Safe. -/
  | notModelled (mnemonic : String)
  /-- A command word of the reserved space; every RESERVED row raises it (30_encoding.md R78). Safe. -/
  | reservedCommand
  /-- A record operand whose length is not `N`; ENCODE raises it (41_encoder.md R114). Safe. -/
  | recordLength
  /-- Creating an instance with `N = 0`; CONFIG raises it (00_scope.md R6). Safe. -/
  | zeroRecordSize
  /-- Creating an instance with `START1_MIN_AVAIL = 0`; CONFIG raises it (00_scope.md R7). Safe. -/
  | badParameter
  deriving DecidableEq, Repr

/-- What a step or a meaning answers. -/
abbrev Out := Host.Outcome State Fault Refusal

end Sys2Proof.Machine
end

