-- ==== Sys2Proof/Machine/Ops.lean ====
section
/-! DEFINITION. The named operations over the arrays, the destination buffer, the byte source and the decoder registers, which
every meaning is written with. The block takes no exception (60_exceptions.md R180, R182): its analogue, the return to
AWAITING_START1 with a result, is `returnToStart1` and `conclude` (R181). -/

namespace Sys2Proof.Machine

/-! ### The destination buffer -/

/-- What an index of the destination buffer that nothing has written reads as. DESIGN CHOICE (log 5): the caller's previous
contents are not the spec's. -/
def Memory.unlisted : Byte := 0

/-- The indices rise strictly from `from` upward and no cell holds the unlisted byte. -/
def Memory.wfFrom : Nat → Memory → Bool
  | _, [] => true
  | lo, (k, v) :: rest => decide (lo ≤ k) && v != Memory.unlisted && Memory.wfFrom (k + 1) rest

/-- The canonical form. -/
def Memory.wf (m : Memory) : Bool := Memory.wfFrom 0 m

/-- Reads one byte. -/
def Memory.read : Memory → Nat → Byte
  | [], _ => Memory.unlisted
  | (k, v) :: rest, a => if a = k then v else Memory.read rest a

/-- A cell before the rest, unless it holds the unlisted byte. -/
def Memory.cell (a : Nat) (b : Byte) (rest : Memory) : Memory :=
  if b = Memory.unlisted then rest else (a, b) :: rest

/-- Writes one byte, keeping the canonical form. -/
def Memory.write : Memory → Nat → Byte → Memory
  | [], a, b => Memory.cell a b []
  | (k, v) :: rest, a, b =>
    if a < k then Memory.cell a b ((k, v) :: rest)
    else if a = k then Memory.cell a b rest
    else (k, v) :: Memory.write rest a b

/-- `MemWrite(dst[a], n, v)`: the bytes of `v` at `a`, `a + 1`, ... (00_scope.md R14). -/
def Memory.writeBytes : Memory → Nat → List Byte → Memory
  | m, _, [] => m
  | m, a, b :: bs => Memory.writeBytes (Memory.write m a b) (a + 1) bs

/-- `MemRead(dst[a], n)` (00_scope.md R14). -/
def Memory.readBytes (m : Memory) (a : Nat) : Nat → List Byte
  | 0 => []
  | n + 1 => Memory.read m a :: Memory.readBytes m (a + 1) n

/-! ### The arrays of fixed size -/

/-- `MemRead(A[i], n)`, where all of `A[i..i+n)` exists (00_scope.md R14). -/
def arrayRead (a : List Byte) (i n : Nat) : Option (List Byte) :=
  if i + n ≤ a.length then some ((a.drop i).take n) else none

/-- `MemWrite(A[i], n, v)`, where all of `A[i..i+n)` exists (00_scope.md R14). -/
def arrayWrite (a : List Byte) (i : Nat) (v : List Byte) : Option (List Byte) :=
  if i + v.length ≤ a.length then some (a.take i ++ v ++ a.drop (i + v.length)) else none

/-! ### The byte source -/

/-- `SrcAvail()` (20_memory.md R51). -/
def srcAvail (s : State) : Nat := s.src.length

/-- The environment appends bytes to the end of the source (20_memory.md R53). -/
def srcAppend (bs : List Byte) (s : State) : State := { s with src := s.src ++ bs }

/-- `SrcRead()`: the oldest byte, removed from the source; none where the source is empty (20_memory.md R52). -/
def srcRead (s : State) : Option (Byte × State) :=
  match s.src with
  | [] => none
  | b :: rest => some (b, { s with src := rest })

/-- The next group of the endless appends. -/
def LaterArrivals.head : LaterArrivals → List Byte
  | .cycle [] => []
  | .cycle (g :: _) => g
  | .free k i => Config.freeArrival k i

/-- The endless appends after their next group. -/
def LaterArrivals.tail : LaterArrivals → LaterArrivals
  | .cycle [] => .cycle []
  | .cycle (g :: gs) => .cycle (gs ++ [g])
  | .free k i => .free k (i + 1)

/-- The group the environment appends before the next step. -/
def Arrivals.head (a : Arrivals) : List Byte :=
  match a.soon with
  | [] => a.later.head
  | g :: _ => g

/-- The appends to come after the next group. -/
def Arrivals.tail (a : Arrivals) : Arrivals :=
  match a.soon with
  | [] => { a with later := a.later.tail }
  | _ :: gs => { a with soon := gs }

/-- The environment's append before a step (20_memory.md R53; 43_decoder_ops.md R157). -/
def deliver (s : State) : State := srcAppend s.arrivals.head { s with arrivals := s.arrivals.tail }

/-- Whether FEED may read a byte now: the START1 guard and the empty-source check (43_decoder_ops.md R151, R152). -/
def mayRead (s : State) : Bool :=
  (s.st != .start1 || decide (s.cfg.minAvail ≤ srcAvail s)) && decide (1 ≤ srcAvail s)

/-- The availability check and the read of one micro-step (43_decoder_ops.md R150): none where FEED must return. -/
def readForFeed (s : State) : Option (Byte × State) := if mayRead s then srcRead s else none

/-! ### Results and the end of FEED -/

/-- A command gives its result (30_encoding.md R77). -/
def respond (o : Output) (s : State) : State := { s with outputs := s.outputs ++ [o] }

/-- The FEED in progress ends; a DRAIN that may go on issues the rest of its FEEDs next, unless the result is `NeedMoreData`
(30_encoding.md R82). -/
def endFeed (o : Output) (s : State) : State :=
  let t := respond o { s with feeding := false, drainLeft := none }
  match s.drainLeft with
  | none => t
  | some k => if o = .needMoreData then t else { t with script := .drain k :: s.script }

/-- What FEED does after a transition: goes on, or ends with the result of R154 (43_decoder_ops.md R153, R154). -/
def conclude (o : FrameOutcome) (s : State) : State :=
  match o with
  | .unfinished => s
  | .complete => endFeed (.frameReady (s.recordOut.take s.cfg.size)) s
  | .errSize => endFeed .sizeMismatch s
  | .errChecksum => endFeed .checksumMismatch s

/-! ### The decoder registers -/

/-- `RETURN_TO_START1` (42_decoder_fsm.md R130), and what RESET does to the registers (43_decoder_ops.md R160). -/
def returnToStart1 (s : State) : State :=
  { s with st := .start1, expectedLength := 0, fillCount := 0 }

/-- The store of R126: `rx_buf[fill_count] <- b`, then `fill_count <- fill_count + 1` in 9 bits (10_state.md R23). -/
def storeByte (b : Byte) (s : State) : Option State :=
  (arrayWrite s.rxBuf s.fillCount.toNat [b]).map fun buf =>
    { s with rxBuf := buf, fillCount := s.fillCount + 1 }

/-- The copy of R127: `MemWrite(record_out[0], N, rx_buf[0..N))`, or the array that does not have the bytes. -/
def copyRecord (s : State) : Except ArrayName State :=
  match arrayRead s.rxBuf 0 s.cfg.size with
  | none => .error .rxBuf
  | some v =>
    match arrayWrite s.recordOut 0 v with
    | none => .error .recordOut
    | some out => .ok { s with recordOut := out }

end Sys2Proof.Machine
end

