-- ==== Sys2Proof/Machine/Operands.lean ====
section
/-! DEFINITION. The XOR checksum unit (40_checksum.md), the layout of a frame (30_encoding.md R70), and the operands of ENCODE
(30_encoding.md R76). -/

namespace Sys2Proof.Machine

/-- `fold_xor(seed, s)` (00_scope.md R13). -/
def foldXor (seed : Byte) (s : List Byte) : Byte := s.foldl (fun acc b => acc ^^^ b) seed

/-- `CHECKSUM(len, p)`: the accumulator starts at the length and takes in every payload byte (40_checksum.md R100). -/
def checksum (len : Byte) (p : List Byte) : Byte := foldXor len p

/-- The frame of a record of `N` bytes: both markers, the length, the payload in index order, the checksum (30_encoding.md R70;
41_encoder.md R111). -/
def frame (n : Byte) (record : List Byte) : List Byte :=
  [mark0, mark1, n] ++ record ++ [checksum n record]

/-- The test `C < N + 4`, exact and unsigned (30_encoding.md R76; 41_encoder.md R112). -/
def bufferTooSmall (s : State) : Bool := decide (s.cap < s.cfg.frameLen)

/-- The caller lends the operands it writes beside a command word: `rec_in`, `C`, and a new buffer where it names one
(41_encoder.md R110; 20_memory.md R66). -/
def lendOperands (o : Operands) (s : State) : State :=
  { s with
    recIn := o.record
    cap := o.cap
    dst := match o.buffer with
      | none => s.dst
      | some bs => Memory.writeBytes [] 0 bs }

/-- Lends the operands where a word has any. -/
def lendAny (o : Option Operands) (s : State) : State :=
  match o with
  | none => s
  | some ops => lendOperands ops s

end Sys2Proof.Machine
end

