-- ==== Sys2Proof/Machine/Flags.lean ====
section
/-! DEFINITION. The block has no flags and no condition codes (10_state.md R29, R30). What stands in their place: the result codes,
and the two conditions a completing transition computes. -/

namespace Sys2Proof.Machine

/-- The 3-bit result code; 7 is never produced (30_encoding.md R77). -/
def Output.code : Output → BitVec 3
  | .needMoreData => 0
  | .frameReady _ => 1
  | .sizeMismatch => 2
  | .checksumMismatch => 3
  | .encodeOk => 4
  | .bufferTooSmall => 5
  | .resetDone => 6

/-- After the store of R126, `fill_count <= expected_length`: the frame is not finished (42_decoder_fsm.md R126). -/
def storeFits (s : State) : Bool := decide ((s.fillCount + 1).toNat ≤ s.expectedLength.toNat)

/-- After storing `b`, the checksum computed over `rx_buf[0..expected_length)` equals `rx_buf[expected_length]`
(42_decoder_fsm.md R127, R128). -/
def checksumMatches (b : Byte) (s : State) : Bool :=
  let buf := s.rxBuf.set s.fillCount.toNat b
  let len := s.expectedLength.toNat
  buf[len]? == some (checksum s.expectedLength (buf.take len))

/-- What the conditions of the transition table see when the byte `b` is read in the state `s` (30_encoding.md R79). -/
def keyContext (b : Byte) (s : State) : KeyContext :=
  { n := s.cfg.n, retest := s.cfg.retest, storeFits := storeFits s, checksumMatches := checksumMatches b s }

/-- The transition the byte `b` takes in the state `s` (30_encoding.md R79). -/
def transitionOf (b : Byte) (s : State) : Transition := decodeTransition (keyContext b s) (makeKey s.st b)

end Sys2Proof.Machine
end

