-- ==== Sys2Proof/Machine/Fsm.lean ====
section
/-! DEFINITION. The meanings of the ten transitions (42_decoder_fsm.md R121 to R130). Selecting the transition is the decoder's part
(`transitionOf`): a meaning is the effect of its row. -/

namespace Sys2Proof.Machine

/-- S1_MATCH: the first marker is found (R121). -/
def execS1Match (s : State) : Out := .next (conclude .unfinished { s with st := .start2 })

/-- S1_SKIP: the byte is discarded (R121). -/
def execS1Skip (_b : Byte) (s : State) : Out := .next (conclude .unfinished { s with st := .start1 })

/-- S2_MATCH: the second marker is found (R122). -/
def execS2Match (s : State) : Out := .next (conclude .unfinished { s with st := .length })

/-- S2_RETEST: the byte is taken as a new first marker (R123). -/
def execS2Retest (s : State) : Out := .next (conclude .unfinished { s with st := .start2 })

/-- S2_FAIL: the byte is discarded and not tested again (R122). -/
def execS2Fail (_b : Byte) (s : State) : Out := .next (conclude .unfinished { s with st := .start1 })

/-- LEN_OK: the length is `N` (R124). -/
def execLenOk (b : Byte) (s : State) : Out :=
  .next (conclude .unfinished { s with expectedLength := b, fillCount := 0, st := .payload })

/-- LEN_BAD: the length is written, then undone by the return to AWAITING_START1 (R125, R130). -/
def execLenBad (b : Byte) (s : State) : Out :=
  .next (conclude .errSize (returnToStart1 { s with expectedLength := b }))

/-- PAY_STORE: the byte is stored and the frame is not finished (R126). -/
def execPayStore (b : Byte) (s : State) : Out :=
  match storeByte b s with
  | none => .fault (.arrayIndex .rxBuf)
  | some t => .next (conclude .unfinished t)

/-- PAY_CS_OK: the checksum byte is stored, the payload is copied to `record_out`, and the frame is complete (R127). -/
def execPayCsOk (b : Byte) (s : State) : Out :=
  match storeByte b s with
  | none => .fault (.arrayIndex .rxBuf)
  | some t =>
    match copyRecord t with
    | .error a => .fault (.arrayIndex a)
    | .ok u => .next (conclude .complete (returnToStart1 u))

/-- PAY_CS_BAD: the checksum byte is stored and the frame is rejected; `rx_buf` is not cleared (R128). -/
def execPayCsBad (b : Byte) (s : State) : Out :=
  match storeByte b s with
  | none => .fault (.arrayIndex .rxBuf)
  | some t => .next (conclude .errChecksum (returnToStart1 t))

/-- Runs a transition on the byte it was selected for. -/
def runTransition (t : Transition) (b : Byte) (s : State) : Out :=
  match t with
  | .s1Match => execS1Match s
  | .s1Skip => execS1Skip b s
  | .s2Match => execS2Match s
  | .s2Retest => execS2Retest s
  | .s2Fail => execS2Fail b s
  | .lenOk => execLenOk b s
  | .lenBad => execLenBad b s
  | .payStore => execPayStore b s
  | .payCsOk => execPayCsOk b s
  | .payCsBad => execPayCsBad b s

/-- `DSTEP(b)`: the one transition the byte takes (R120, R131). -/
def dstep (b : Byte) (s : State) : Out := runTransition (transitionOf b s) b s

end Sys2Proof.Machine
end

