-- ==== Sys2Proof/Machine/Command.lean ====
section
/-! DEFINITION. The meanings of the commands RESET, ENCODE and FEED, and of the reserved command words. -/

namespace Sys2Proof.Machine

/-- RESET (43_decoder_ops.md R160). -/
def execReset (s : State) : Out := .next (respond .resetDone (returnToStart1 s))

/-- ENCODE: refuses a record that is not `N` bytes (41_encoder.md R114), answers BufferTooSmall with nothing written (R112), or
writes the frame at `dst[0..N+4)` (R111). -/
def execEncode (s : State) : Out :=
  if s.recIn.length ≠ s.cfg.size then .refused .recordLength
  else if bufferTooSmall s then .next (respond .bufferTooSmall s)
  else .next (respond .encodeOk { s with dst := Memory.writeBytes s.dst 0 (frame s.cfg.n s.recIn) })

/-- FEED: one pass of its loop body (43_decoder_ops.md R150, R157). It returns `NeedMoreData` where it may not read (R151, R152);
otherwise it reads one byte and runs the transition the byte takes, and a transition that ends no frame leaves FEED in progress
(R153): the next step is its next pass. -/
def execFeed (s : State) : Out :=
  match readForFeed { s with feeding := true } with
  | none => .next (endFeed .needMoreData s)
  | some (b, t) => dstep b t

/-- RESERVED_OP3 (30_encoding.md R78). -/
def execReservedOp3 (_w : Byte) (_s : State) : Out := .refused .reservedCommand

/-- RESERVED_BIT2 (30_encoding.md R78). -/
def execReservedBit2 (_w : Byte) (_s : State) : Out := .refused .reservedCommand

/-- RESERVED_BIT3 (30_encoding.md R78). -/
def execReservedBit3 (_w : Byte) (_s : State) : Out := .refused .reservedCommand

/-- RESERVED_BIT4 (30_encoding.md R78). -/
def execReservedBit4 (_w : Byte) (_s : State) : Out := .refused .reservedCommand

/-- RESERVED_BIT5 (30_encoding.md R78). -/
def execReservedBit5 (_w : Byte) (_s : State) : Out := .refused .reservedCommand

/-- RESERVED_BIT6 (30_encoding.md R78). -/
def execReservedBit6 (_w : Byte) (_s : State) : Out := .refused .reservedCommand

/-- RESERVED_BIT7 (30_encoding.md R78). -/
def execReservedBit7 (_w : Byte) (_s : State) : Out := .refused .reservedCommand

end Sys2Proof.Machine
end

