-- ==== Sys2Proof/Machine/Script.lean ====
section
/-! DEFINITION. What the machine runs next: the next micro-instruction of a FEED in progress, or the caller's next statement
(30_encoding.md R81, R82), and the statements that are no commands. -/

namespace Sys2Proof.Machine

/-- What a step has to do. -/
inductive Fetched where
  /-- Run an instruction in a state. -/
  | run (i : Instr) (s : State)
  /-- The step is a statement that is no command, or nothing. -/
  | done (o : Out)

/-- `n` free bytes from the `k`-th on. Two instances whose counters agree get the same ones: the model's own tie (log 3). -/
def freeBytes (k n : Nat) : List Byte := (List.range n).map fun i => Config.freeByte (k + i)

/-- A new instance with this configuration and this byte source, in place of the one before it (70_reset_and_hazards.md R210;
10_state.md R35). `rx_buf` and `record_out` are unspecified: free bytes, tied to the counter `fresh` (log 3). What belongs to the caller and
the environment stays. -/
def newCodec (c : Config) (src : List Byte) (s : State) : State :=
  { s with
    st := .start1
    expectedLength := 0
    fillCount := 0
    rxBuf := freeBytes s.fresh (c.size + 1)
    recordOut := freeBytes (s.fresh + (c.size + 1)) c.size
    cfg := c
    src := src
    feeding := false
    drainLeft := none
    fresh := s.fresh + (c.size + 1) + c.size }

/-- CONFIG (30_encoding.md R81), with its refusals (60_exceptions.md R184). DESIGN CHOICE (log 17): with both `N = 0` and
`START1_MIN_AVAIL = 0` the spec gives two refusals and no order; the model tests `N` first and answers ZeroRecordSize. -/
def runConfig (n : Byte) (minAvail : Option Nat) (retest : Option Bool) (src : List Byte) (s : State) : Out :=
  let c : Config :=
    { n := n, minAvail := minAvail.getD Config.defaultMinAvail, retest := retest.getD Config.defaultRetest }
  if c.n = 0 then .refused .zeroRecordSize
  else if c.minAvail = 0 then .refused .badParameter
  else .next (newCodec c src s)

/-- PUSHDST (30_encoding.md R81): a loopback wire. -/
def pushDst (s : State) : State := srcAppend (Memory.readBytes s.dst 0 s.cfg.frameLen) s

/-- The caller's statement `q`, issued while no command runs. -/
def issue (q : Stmt) (s : State) : Fetched :=
  match q with
  | .config n k r src => .done (runConfig n k r src s)
  | .command w ops => .run (decodeCommand w) (lendAny ops s)
  | .push bs => .done (.next (srcAppend bs s))
  | .pushDst => .done (.next (pushDst s))
  | .drain 0 => .done (.next s)
  | .drain (k + 1) => .run .feed { s with drainLeft := some k }

/-- What runs next. While FEED is in progress it is the transition of the next byte, or FEED itself where no byte may be read
(43_decoder_ops.md R150); otherwise the caller's next statement, and nothing where there is none (60_exceptions.md R193). -/
def fetch (s : State) : Fetched :=
  if s.feeding then
    match readForFeed s with
    | none => .run .feed s
    | some (b, t) => .run ((transitionOf b t).instr b) t
  else
    match s.script with
    | [] => .done (.next s)
    | q :: rest => issue q { s with script := rest }

/-! ### Placing a word of the opcode table -/

/-- The operands a word of the opcode table is given: zeros for ENCODE, none for the rest. -/
def tableOperands (w : Byte) (s : State) : Option Operands :=
  if w = 0x01 then some { record := List.replicate s.cfg.size 0, cap := 0, buffer := none } else none

/-- The command word is the caller's next statement, and no command runs. -/
def placeCommand (w : Byte) (s : State) : State :=
  { s with feeding := false, drainLeft := none, script := .command w (tableOperands w s) :: s.script }

/-- The decoder is in the key's state, with a frame of which nothing is stored where that state is AWAITING_PAYLOAD (10_state.md
R31, R32). -/
def placeState (st : DecState) (s : State) : State :=
  match st with
  | .payload => { s with st := .payload, expectedLength := s.cfg.n, fillCount := 0 }
  | other => { s with st := other, expectedLength := 0, fillCount := 0 }

/-- The zero bytes that must stand in the source behind a key's byte before the START1 guard lets FEED read it. -/
def guardPadding (st : DecState) (s : State) : List Byte :=
  if st = .start1 then List.replicate (s.cfg.minAvail - 1 - srcAvail s) 0 else []

/-- A FEED is in progress, the decoder is in the key's state, and the key's byte is the oldest of the source, with as many bytes
after it as the START1 guard asks for. The re-test option is on where the key is S2_RETEST's (log 14). -/
def placeKey (k : Key) (s : State) : State :=
  let t := placeState (keyState k) s
  { t with
    feeding := true
    drainLeft := none
    cfg := { s.cfg with retest := s.cfg.retest || k == makeKey .start2 mark0 }
    src := keyByte k :: (s.src ++ guardPadding (keyState k) s) }

/-- Places a word of the opcode table where the next step takes it from. -/
def placeWord (nbits w : Nat) (s : State) : State :=
  if nbits ≤ 8 then placeCommand (BitVec.ofNat 8 w) s else placeKey (BitVec.ofNat 10 w) s

end Sys2Proof.Machine
end

