-- ==== Sys2Proof/Machine/Dispatch.lean ====
section
/-! DEFINITION. One meaning for every instruction. -/

namespace Sys2Proof.Machine

def exec (i : Instr) (s : State) : Host.Outcome State Fault Refusal :=
  match i with
  -- commands
  | .reset => Sys2Proof.Machine.execReset s
  | .encode => Sys2Proof.Machine.execEncode s
  | .feed => Sys2Proof.Machine.execFeed s
  -- reserved command words
  | .reservedOp3 w => Sys2Proof.Machine.execReservedOp3 w s
  | .reservedBit2 w => Sys2Proof.Machine.execReservedBit2 w s
  | .reservedBit3 w => Sys2Proof.Machine.execReservedBit3 w s
  | .reservedBit4 w => Sys2Proof.Machine.execReservedBit4 w s
  | .reservedBit5 w => Sys2Proof.Machine.execReservedBit5 w s
  | .reservedBit6 w => Sys2Proof.Machine.execReservedBit6 w s
  | .reservedBit7 w => Sys2Proof.Machine.execReservedBit7 w s
  -- transitions of the frame decoder
  | .s1Match => Sys2Proof.Machine.execS1Match s
  | .s1Skip b => Sys2Proof.Machine.execS1Skip b s
  | .s2Match => Sys2Proof.Machine.execS2Match s
  | .s2Retest => Sys2Proof.Machine.execS2Retest s
  | .s2Fail b => Sys2Proof.Machine.execS2Fail b s
  | .lenOk b => Sys2Proof.Machine.execLenOk b s
  | .lenBad b => Sys2Proof.Machine.execLenBad b s
  | .payStore b => Sys2Proof.Machine.execPayStore b s
  | .payCsOk b => Sys2Proof.Machine.execPayCsOk b s
  | .payCsBad b => Sys2Proof.Machine.execPayCsBad b s

end Sys2Proof.Machine
end

