-- ==== Sys2Proof/Machine/Step.lean ====
section
/-! DEFINITION. One step: the environment's append, then one micro-step of FEED, one command, or one statement of the script. -/

namespace Sys2Proof.Machine

/-- One step before which the environment appends `g`. Every `g` is allowed before every step (20_memory.md R53, R62;
43_decoder_ops.md R157). -/
def stepWith (g : List Byte) (s : State) : Out :=
  match fetch (srcAppend g s) with
  | .run i t => exec i t
  | .done o => o

/-- One step, with the append the state has in store: `stepWith` of the next group, which is taken off the arrivals. -/
def step (s : State) : Host.Outcome State Fault Refusal :=
  match fetch (deliver s) with
  | .run i t => exec i t
  | .done o => o

/-- The state with a word of the opcode table stored where `step` takes its next instruction from. -/
def State.withFetchWord (s : State) (nbits w : Nat) : State := placeWord nbits w s

end Sys2Proof.Machine
end

