-- ==== Sys2Proof/Machine/System.lean ====
section
/-! DEFINITION. Several instances: independent machines that share nothing and step in any order (60_exceptions.md R191). -/

namespace Sys2Proof.Machine

/-- The instances, one for each connection; an instance has no identifier but its place. A place holds what its instance has come to:
the state it goes on from, or the fault or refusal that ended its own run and no other's (log 16). -/
abbrev System := List Out

/-- What an instance comes to by a step. One whose run has ended stays as it is. -/
def stepOutcome : Out → Out
  | .next s => step s
  | .fault f => .fault f
  | .refused r => .refused r

/-- The `k`-th instance takes a step. Where there is no such instance nothing happens. -/
def stepAt (k : Nat) (sys : System) : System := sys.modify k stepOutcome

/-- The instances named by `order` step one after another: every interleaving is some `order`. -/
def runSystem : List Nat → System → System
  | [], sys => sys
  | k :: ks, sys => runSystem ks (stepAt k sys)

end Sys2Proof.Machine
end

