-- ==== Sys2Proof/Safety.lean ====
section
/-! DEFINITION. The invariants of the machine and the words its claims are stated in: runs, the decoder's own view, and the stream a run
is fed. -/

namespace Sys2Proof.Machine

/-! ### Runs -/

/-- `k` steps, up to the first fault or refusal. -/
def run : Nat → State → Out
  | 0, s => .next s
  | k + 1, s =>
    match step s with
    | .next t => run k t
    | .fault f => .fault f
    | .refused r => .refused r

/-- The statement FEED. -/
def feedStmt : Stmt := .command 0x02 none

/-- The statement ENCODE, with the operands lent before. -/
def encodeStmt : Stmt := .command 0x01 none

/-- The statement issues FEEDs and nothing else. -/
def Stmt.isFeed : Stmt → Bool
  | .command w _ => w == 0x02
  | .drain _ => true
  | .config _ _ _ _ => false
  | .push _ => false
  | .pushDst => false

/-- The script issues FEEDs and nothing else. -/
def onlyFeeds (q : List Stmt) : Prop := ∀ x ∈ q, Stmt.isFeed x = true

/-- The next statement of an idle machine is a CONFIG. -/
def State.atConfig (s : State) : Prop :=
  s.feeding = false ∧ ∃ n k r src rest, s.script = Stmt.config n k r src :: rest

/-- The next micro-step is one of FEED: it is in progress, or it is issued now, by its word or by a DRAIN. -/
def State.atFeed (s : State) : Prop :=
  s.feeding = true ∨ ∃ rest, (∃ o, s.script = .command 0x02 o :: rest) ∨ ∃ k, s.script = .drain (k + 1) :: rest

/-- The group the environment appends before the `i`-th step from now. -/
def Arrivals.group : Arrivals → Nat → List Byte
  | a, 0 => a.head
  | a, i + 1 => a.tail.group i

/-- All the bytes the environment appends during the next `k` steps. -/
def Arrivals.bytes : Arrivals → Nat → List Byte
  | _, 0 => []
  | a, k + 1 => a.head ++ a.tail.bytes k

/-- No append of the environment is to come. -/
def State.quiet (s : State) : Prop := ∀ i, s.arrivals.group i = []

/-! ### The open machine -/

/-- An endless sequence of appends: the environment appends `g i` before the `i`-th step. It is no part of a state; a claim about all
of them is a claim about every interleaving (43_decoder_ops.md R157). -/
abbrev Environment := Nat → List Byte

/-- The appends after the first. -/
def Environment.later (g : Environment) : Environment := fun i => g (i + 1)

/-- All the bytes the environment appends during the first `k` steps. -/
def Environment.bytes : Environment → Nat → List Byte
  | _, 0 => []
  | g, k + 1 => g 0 ++ Environment.bytes g.later k

/-- `k` steps in an environment, up to the first fault or refusal. -/
def runIn : Environment → Nat → State → Out
  | _, 0, s => .next s
  | g, k + 1, s =>
    match stepWith (g 0) s with
    | .next t => runIn g.later k t
    | .fault f => .fault f
    | .refused r => .refused r

/-! ### Invariants -/

/-- What holds of every state between two steps. -/
structure State.Inv (s : State) : Prop where
  /-- A legal configuration (10_state.md R28). -/
  legal : s.cfg.wf = true
  /-- The header invariant (10_state.md R31). -/
  header : s.st ≠ .payload → s.expectedLength = 0 ∧ s.fillCount = 0
  /-- The payload invariant (10_state.md R32). -/
  payload : s.st = .payload → s.expectedLength = s.cfg.n ∧ s.fillCount.toNat ≤ s.cfg.size
  /-- `rx_buf` has `N + 1` bytes (10_state.md R24). -/
  rxLength : s.rxBuf.length = s.cfg.size + 1
  /-- `record_out` has `N` bytes (10_state.md R25). -/
  outLength : s.recordOut.length = s.cfg.size
  /-- The destination buffer is in its canonical form. -/
  buffer : Memory.wf s.dst = true
  /-- Only a FEED in progress belongs to a DRAIN. -/
  drain : s.drainLeft ≠ none → s.feeding = true

/-- With the re-test option off and a guard of at least 3, a header once begun is read to its end within the same FEED
(43_decoder_ops.md R167). -/
structure State.HeaderUnbroken (s : State) : Prop where
  second : s.cfg.retest = false → 3 ≤ s.cfg.minAvail → s.st = .start2 → s.feeding = true ∧ 2 ≤ s.src.length
  third : s.cfg.retest = false → 3 ≤ s.cfg.minAvail → s.st = .length → s.feeding = true ∧ 1 ≤ s.src.length

/-! ### The decoder's own view -/

/-- What `DSTEP` reads and writes besides the byte (42_decoder_fsm.md R120). -/
structure DecoderView where
  st : DecState
  expectedLength : BitVec 8
  fillCount : BitVec 9
  rxBuf : List Byte
  recordOut : List Byte
  cfg : Config
  deriving DecidableEq, Repr

/-- The decoder's registers and arrays, and the configuration. -/
def State.decoder (s : State) : DecoderView :=
  { st := s.st, expectedLength := s.expectedLength, fillCount := s.fillCount, rxBuf := s.rxBuf, recordOut := s.recordOut,
    cfg := s.cfg }

/-- The two states differ at most in bytes of `rx_buf` that the frame in progress has not written, and in `record_out`. -/
def State.sameWritten (s s' : State) : Prop :=
  s' = { s with rxBuf := s'.rxBuf, recordOut := s'.recordOut } ∧
  s.rxBuf.take s.fillCount.toNat = s'.rxBuf.take s.fillCount.toNat

/-- The result says something happened: every result but `NeedMoreData`. -/
def Output.isNews : Output → Bool
  | .needMoreData => false
  | .frameReady _ => true
  | .sizeMismatch => true
  | .checksumMismatch => true
  | .encodeOk => true
  | .bufferTooSmall => true
  | .resetDone => true

/-- The results without the `NeedMoreData`s. -/
def news (os : List Output) : List Output := os.filter Output.isNews

/-- `DSTEP` over a sequence of bytes, each result given as FEED gives it (43_decoder_ops.md R162). -/
def absorb : List Byte → State → Out
  | [], s => .next s
  | b :: bs, s =>
    match dstep b { s with drainLeft := none } with
    | .next t => absorb bs t
    | .fault f => .fault f
    | .refused r => .refused r

/-- FEED can take no more from the source: what a FEED that returns `NeedMoreData` leaves (43_decoder_ops.md R161). -/
def State.exhausted (s : State) : Prop :=
  (s.st = .start1 ∧ s.src.length < s.cfg.minAvail) ∨ (s.st ≠ .start1 ∧ s.src = [])

/-- No three consecutive bytes of the stream are `0x06, 0x85, n` (43_decoder_ops.md R164). -/
def junkFor (n : Byte) (bs : List Byte) : Prop := ∀ u v, bs ≠ u ++ [0x06, 0x85, n] ++ v

end Sys2Proof.Machine
end

