-- ==== Sys2Proof/Certificates/Slice0/Obligations.lean ====
section
/-! DEFINITION. The statements about the model. Each docstring names the rule of spec/ it formalises. -/

open Sys2Proof
open Sys2Proof.Machine

/-! ### Encodings -/

/-- Words of every family decode to what spec/opcode_table.json says they stand for. -/
def Obligations.DecodesTheTablesWords : Prop :=
  decodeCommand 0b00000000#8 = .reset ∧ decodeCommand 0b00000001#8 = .encode ∧ decodeCommand 0b00000010#8 = .feed ∧
  decodeCommand 0b00000011#8 = .reservedOp3 0x03 ∧ decodeCommand 0b00000100#8 = .reservedBit2 0x04 ∧
  decodeCommand 0b10000010#8 = .reservedBit7 0x82 ∧
  ∀ c : KeyContext,
    decodeKey c 0b0000000110#10 = .s1Match ∧ decodeKey c 0b0010000101#10 = .s1Skip 0x85 ∧
    decodeKey c 0b0110000101#10 = .s2Match ∧ decodeKey c 0b0100000000#10 = .s2Fail 0x00

/-- Decoding the encoding of a well-formed instruction gives it back, with every operand, wherever its row's condition holds
(30_encoding.md R75, R78, R79). -/
def Obligations.DecodeOfEncodeIsTheInstruction : Prop :=
  ∀ (i : Instr) (c : KeyContext), i.wf = true → i.condition c = true → decodeEncoded c (encode i) = i

/-- Encoding what a word or a key decodes to gives the word or key back, and the condition of its row holds (30_encoding.md R75, R78,
R79). That a reserved word is well formed only as the first reserved row it matches is the model's choice (log 11). -/
def Obligations.EncodeOfDecodeIsTheWord : Prop :=
  (∀ w : Byte, (decodeCommand w).wf = true ∧ encode (decodeCommand w) = .command w) ∧
  ∀ (c : KeyContext) (k : Key), encode (decodeKey c k) = .key k ∧ (decodeKey c k).condition c = true

/-- Every key, in every context, is selected by exactly one row of the transition table, the one the decoder takes
(30_encoding.md R79: "Every pair (st, b) selects exactly one transition"). -/
def Obligations.EveryKeySelectsExactlyOneRow : Prop :=
  ∀ (c : KeyContext) (k : Key) (t : Transition), t.selects c k = true ↔ t = decodeTransition c k

/-- R78: a word with `op = 0b11` or `cmd[7:2] != 0` is refused with ReservedCommand in every state, and every other word is one
of the three commands. -/
def Obligations.ReservedWordsAreRefused : Prop :=
  ∀ w : Byte,
    if opField w = 0b11#2 ∨ zeroField w ≠ 0 then ∀ s : State, exec (decodeCommand w) s = .refused .reservedCommand
    else decodeCommand w = .reset ∨ decodeCommand w = .encode ∨ decodeCommand w = .feed

/-- Each of the seven reserved rows stops with ReservedCommand (30_encoding.md R78). -/
def Obligations.ReservedRowsStop : Prop :=
  ∀ (w : Byte) (s : State),
    exec (.reservedOp3 w) s = .refused .reservedCommand ∧ exec (.reservedBit2 w) s = .refused .reservedCommand ∧
    exec (.reservedBit3 w) s = .refused .reservedCommand ∧ exec (.reservedBit4 w) s = .refused .reservedCommand ∧
    exec (.reservedBit5 w) s = .refused .reservedCommand ∧ exec (.reservedBit6 w) s = .refused .reservedCommand ∧
    exec (.reservedBit7 w) s = .refused .reservedCommand

/-- Result codes 0 to 6, and 7 never (30_encoding.md R77, 43_decoder_ops.md R154). -/
def Obligations.ResultCodes : Prop :=
  Output.code .needMoreData = 0#3 ∧ (∀ r, Output.code (.frameReady r) = 1#3) ∧ Output.code .sizeMismatch = 2#3 ∧
  Output.code .checksumMismatch = 3#3 ∧ Output.code .encodeOk = 4#3 ∧ Output.code .bufferTooSmall = 5#3 ∧
  Output.code .resetDone = 6#3 ∧ ∀ o : Output, Output.code o ≠ 7#3

/-! ### The step -/

/-- A step runs the decoded instruction: the command word at the head of the script, in the state the statement is issued in; and
while FEED is in progress, the transition the next byte's key decodes to, or FEED's own return; so every such step is one pass of
FEED's loop body (43_decoder_ops.md R150, R157). Before it, the environment's append: the step of the open machine, which takes any
append, on the group that the state has in store. -/
def Obligations.StepRunsTheDecodedInstruction : Prop :=
  (∀ (s : State) (w : Byte) (o : Option Operands) (rest : List Stmt), s.feeding = false → s.script = .command w o :: rest →
    step s = exec (decodeCommand w) (lendAny o { deliver s with script := rest })) ∧
  (∀ (s : State) (b : Byte) (rest : List Byte), s.feeding = true → mayRead (deliver s) = true → (deliver s).src = b :: rest →
    step s = exec (decodeKey (keyContext b (deliver s)) (makeKey s.st b)) { deliver s with src := rest }) ∧
  (∀ s : State, s.feeding = true → mayRead (deliver s) = false → step s = exec .feed (deliver s)) ∧
  (∀ s : State, s.feeding = true → step s = exec .feed (deliver s)) ∧
  (∀ s : State, step s = stepWith (s.arrivals.head) { s with arrivals := s.arrivals.tail })

/-- The byte source is a FIFO the environment appends to and the block takes the oldest byte from: a step never removes, reorders
or changes any other byte (20_memory.md R50, R52, R53). FEED may take the oldest byte; PUSH and PUSHDST append, PUSHDST the bytes
`dst[0..N+4)` (30_encoding.md R81); every other step but CONFIG, which connects another source and is apart, only lets the environment
append. -/
def Obligations.SourceIsAFifo : Prop :=
  ∀ s t : State, ¬ s.atConfig → step s = .next t →
    (s.atFeed ∧ ∃ b, s.src ++ s.arrivals.head = b :: t.src) ∨
    t.src = s.src ++ s.arrivals.head ++
      (if s.feeding then []
       else match s.script with
        | .push bs :: _ => bs
        | .pushDst :: _ => Memory.readBytes s.dst 0 (s.cfg.size + 4)
        | _ => [])

/-- No step but a CONFIG statement writes the configuration (10_state.md R28). -/
def Obligations.ConfigurationIsReadOnly : Prop :=
  ∀ s t : State, ¬ s.atConfig → step s = .next t → t.cfg = s.cfg

/-- A step gives at most one result; a result of FEED ends it (43_decoder_ops.md R156; 60_exceptions.md R183). -/
def Obligations.AtMostOneResultAStep : Prop :=
  ∀ s t : State, step s = .next t → t.outputs = s.outputs ∨ ((∃ o, t.outputs = s.outputs ++ [o]) ∧ t.feeding = false)

/-! ### Reset and creation -/

/-- The values the spec gives for creation (10_state.md R35): the registers, and the defaults of the configuration. The other
fields of the reset state are the model's choice (logs 1 to 10) and are not stated here. -/
def Obligations.ResetHoldsTheCreationValues : Prop :=
  State.reset.st = .start1 ∧ State.reset.expectedLength = 0 ∧ State.reset.fillCount = 0 ∧
  State.reset.rxBuf.length = State.reset.cfg.size + 1 ∧ State.reset.recordOut.length = State.reset.cfg.size ∧
  State.reset.cfg.minAvail = 3 ∧ State.reset.cfg.retest = false

/-- The invariants hold at reset. -/
def Obligations.InvariantsHoldAtReset : Prop := State.reset.Inv ∧ State.reset.HeaderUnbroken

/-- CONFIG creates an instance at its creation values, with the defaults where a parameter is not written, and refuses `N = 0`
and `START1_MIN_AVAIL = 0` (70_reset_and_hazards.md R210; 60_exceptions.md R184). What the byte source of the new instance holds is
given with the statement (log 9). That a CONFIG with both parameters 0 gets ZeroRecordSize is the model's choice (log 17). -/
def Obligations.ConfigCreatesAnInstance : Prop :=
  ∀ (s : State) (n : Byte) (k : Option Nat) (r : Option Bool) (src : List Byte) (rest : List Stmt),
    s.feeding = false → s.script = .config n k r src :: rest →
    if n = 0 then step s = .refused .zeroRecordSize
    else if k = some 0 then step s = .refused .badParameter
    else ∃ t, step s = .next t ∧ t.st = .start1 ∧ t.expectedLength = 0 ∧ t.fillCount = 0 ∧
      t.cfg = { n := n, minAvail := k.getD 3, retest := r.getD false } ∧
      t.rxBuf.length = n.toNat + 1 ∧ t.recordOut.length = n.toNat ∧ t.src = src ∧ t.feeding = false ∧ t.script = rest ∧
      t.recIn = s.recIn ∧ t.dst = s.dst ∧ t.cap = s.cap ∧ t.outputs = s.outputs

/-- R160: RESET returns the decoder to its initial state and touches nothing else. -/
def Obligations.ResetReturnsToTheInitialState : Prop :=
  decodeCommand 0x00 = .reset ∧
  ∀ s : State, exec .reset s =
    .next { s with st := .start1, expectedLength := 0, fillCount := 0, outputs := s.outputs ++ [.resetDone] }

/-! ### The checksum and the frame -/

/-- R100: the accumulator starts at the length and takes in the payload bytes from the first to the last; its corner cases. -/
def Obligations.ChecksumAccumulates : Prop :=
  (∀ len : Byte, checksum len [] = len) ∧
  (∀ (len : Byte) (p : List Byte) (b : Byte), checksum len (p ++ [b]) = checksum len p ^^^ b) ∧
  (∀ len : Byte, checksum len (List.replicate len.toNat 0x00) = len) ∧
  (∀ len : Byte, checksum len (List.replicate len.toNat 0xFF) = if len.toNat % 2 = 1 then len ^^^ 0xFF else len) ∧
  checksum 4 [0x01, 0x02, 0x03, 0x04] = 0x00

/-- R101: the XOR of all covered bytes of a valid frame is zero, and the order of the payload does not matter. -/
def Obligations.ChecksumOfAFrameIsZero : Prop :=
  (∀ (len : Byte) (p : List Byte), foldXor len (p ++ [checksum len p]) = 0) ∧
  ∀ (len : Byte) (p q : List Byte), p.Perm q → checksum len p = checksum len q

/-- A change of exactly one covered byte is seen; the same change of two payload bytes is not (40_checksum.md R102). -/
def Obligations.ChecksumDetectsOneChangedByte : Prop :=
  (∀ (len : Byte) (p : List Byte) (i : Nat) (x : Byte), i < p.length → p[i]? ≠ some x →
    checksum len (p.set i x) ≠ checksum len p) ∧
  ∀ (len d : Byte) (p : List Byte) (i j : Nat) (x y : Byte), i ≠ j → p[i]? = some x → p[j]? = some y →
    checksum len ((p.set i (x ^^^ d)).set j (y ^^^ d)) = checksum len p

/-- R70: the frame's fields at their offsets. -/
def Obligations.FrameLayout : Prop :=
  ∀ (n : Byte) (r : List Byte), r.length = n.toNat →
    (frame n r).length = n.toNat + 4 ∧ (frame n r)[0]? = some 0b00000110#8 ∧ (frame n r)[1]? = some 0b10000101#8 ∧
    (frame n r)[2]? = some n ∧ (∀ i, i < n.toNat → (frame n r)[3 + i]? = r[i]?) ∧
    (frame n r)[3 + n.toNat]? = some (r.foldl (fun acc b => acc ^^^ b) n)

/-! ### ENCODE -/

/-- R111: ENCODE writes the frame at `dst[0..N+4)` and nothing else, or answers BufferTooSmall. -/
def Obligations.EncodeWritesTheFrame : Prop :=
  decodeCommand 0x01 = .encode ∧
  ∀ s : State, s.recIn.length = s.cfg.size → Memory.wf s.dst = true →
    if s.cap < s.cfg.size + 4 then exec .encode s = .next { s with outputs := s.outputs ++ [.bufferTooSmall] }
    else ∃ m, exec .encode s = .next { s with dst := m, outputs := s.outputs ++ [.encodeOk] } ∧
      Memory.readBytes m 0 (s.cfg.size + 4) = [0x06, 0x85, s.cfg.n] ++ s.recIn ++ [checksum s.cfg.n s.recIn] ∧
      (∀ a, s.cfg.size + 4 ≤ a → Memory.read m a = Memory.read s.dst a) ∧ Memory.wf m = true

/-- R112: with `C < N + 4` ENCODE answers BufferTooSmall, writes no byte of `dst` and changes no other state. -/
def Obligations.BufferTooSmallWritesNothing : Prop :=
  ∀ s : State, s.recIn.length = s.cfg.size → s.cap < s.cfg.size + 4 →
    exec .encode s = .next { s with outputs := s.outputs ++ [.bufferTooSmall] }

/-- A record whose length is not `N` is refused, whatever the capacity (41_encoder.md R114; 60_exceptions.md R183). -/
def Obligations.WrongRecordLengthIsRefused : Prop :=
  ∀ s : State, s.recIn.length ≠ s.cfg.size → exec .encode s = .refused .recordLength

/-- R113: ENCODE's result and frame depend on `N`, `rec_in` and `C` alone, not on the decoder's state, the byte source or what
`dst` held; the bytes from `N + 4` on keep their values. -/
def Obligations.EncodeIsPure : Prop :=
  ∀ s s' t : State, s.cfg.n = s'.cfg.n → s.recIn = s'.recIn → s.cap = s'.cap →
    Memory.wf s.dst = true → Memory.wf s'.dst = true →
    exec .encode s = .next t →
    ∃ t' o, exec .encode s' = .next t' ∧ t.outputs = s.outputs ++ [o] ∧ t'.outputs = s'.outputs ++ [o] ∧
      (o = .encodeOk → Memory.readBytes t.dst 0 (s.cfg.size + 4) = Memory.readBytes t'.dst 0 (s.cfg.size + 4)) ∧
      (∀ a, s.cfg.size + 4 ≤ a → Memory.read t.dst a = Memory.read s.dst a)

/-- Every capacity that holds the frame behaves alike, so the width of `C` does not matter (92_eei_decisions.md D32; log 6). -/
def Obligations.EveryLargeEnoughCapacityIsAlike : Prop :=
  ∀ (s : State) (c c' : Nat), s.cfg.size + 4 ≤ c → s.cfg.size + 4 ≤ c' →
    match exec .encode { s with cap := c }, exec .encode { s with cap := c' } with
    | .next t, .next t' => t.dst = t'.dst ∧ t.outputs = t'.outputs
    | .refused r, .refused r' => r = r'
    | _, _ => False

/-! ### The state machine -/

/-- R121: in AWAITING_START1 the first marker moves on, any other byte is discarded, and nothing else changes. -/
def Obligations.AwaitingStart1 : Prop :=
  (∀ (c : KeyContext) (b : Byte), decodeKey c (makeKey .start1 b) = if b = 0x06 then .s1Match else .s1Skip b) ∧
  (∀ s : State, exec .s1Match s = .next { s with st := .start2 }) ∧
  (∀ (b : Byte) (s : State), exec (.s1Skip b) s = .next { s with st := .start1 }) ∧
  (∀ (b : Byte) (s : State), s.st = .start1 → dstep b s = .next { s with st := if b = 0x06 then .start2 else .start1 })

/-- In AWAITING_START2 the second marker moves on; any other byte is discarded, or, where the re-test option is on and the byte is
the first marker, taken as a new first marker (42_decoder_fsm.md R122, R123). -/
def Obligations.AwaitingStart2 : Prop :=
  (∀ (c : KeyContext) (b : Byte), decodeKey c (makeKey .start2 b) =
    if b = 0x85 then .s2Match else if b = 0x06 ∧ c.retest = true then .s2Retest else .s2Fail b) ∧
  (∀ s : State, exec .s2Match s = .next { s with st := .length }) ∧
  (∀ s : State, exec .s2Retest s = .next { s with st := .start2 }) ∧
  (∀ (b : Byte) (s : State), exec (.s2Fail b) s = .next { s with st := .start1 }) ∧
  (∀ (b : Byte) (s : State), s.st = .start2 → dstep b s = .next { s with
    st := if b = 0x85 then .length else if b = 0x06 ∧ s.cfg.retest = true then .start2 else .start1 })

/-- R124: the length `N` is accepted. -/
def Obligations.LengthAccepted : Prop :=
  (∀ (c : KeyContext) (b : Byte), decodeKey c (makeKey .length b) = .lenOk b ↔ b = c.n) ∧
  (∀ (b : Byte) (s : State), exec (.lenOk b) s = .next { s with expectedLength := b, fillCount := 0, st := .payload }) ∧
  (∀ s : State, s.cfg.wf = true → s.st = .length →
    dstep s.cfg.n s = .next { s with expectedLength := s.cfg.n, fillCount := 0, st := .payload } ∧ s.cfg.n ≠ 0)

/-- R125: any other length is rejected with SizeMismatch, with only the header consumed and `record_out` not written. -/
def Obligations.LengthRejected : Prop :=
  (∀ (c : KeyContext) (b : Byte), decodeKey c (makeKey .length b) = .lenBad b ↔ b ≠ c.n) ∧
  (∀ (b : Byte) (s : State), exec (.lenBad b) s =
    .next (endFeed .sizeMismatch { s with st := .start1, expectedLength := 0, fillCount := 0 })) ∧
  (∀ (b : Byte) (s : State), s.st = .length → b ≠ s.cfg.n →
    dstep b s = .next (endFeed .sizeMismatch { s with st := .start1, expectedLength := 0, fillCount := 0 })) ∧
  (∀ s : State, s.cfg.wf = true → s.cfg.n ≠ 0)

/-- R126, R127, R128: in AWAITING_PAYLOAD every byte is stored at `rx_buf[fill_count]`; the byte after the `N`-th is the checksum, and
the frame is complete or rejected with it. -/
def Obligations.AwaitingPayload : Prop :=
  ∀ (s : State) (b : Byte), s.Inv → s.st = .payload →
    if s.fillCount.toNat < s.cfg.size then
      dstep b s = exec (.payStore b) s ∧
      exec (.payStore b) s =
        .next { s with rxBuf := s.rxBuf.set s.fillCount.toNat b, fillCount := s.fillCount + 1 } ∧
      (s.fillCount + 1).toNat = s.fillCount.toNat + 1
    else if checksum s.cfg.n (s.rxBuf.take s.cfg.size) = b then
      dstep b s = exec (.payCsOk b) s ∧
      exec (.payCsOk b) s = .next (endFeed (.frameReady (s.rxBuf.take s.cfg.size))
        { s with rxBuf := s.rxBuf.set s.cfg.size b, recordOut := s.rxBuf.take s.cfg.size, st := .start1,
                 expectedLength := 0, fillCount := 0 })
    else
      dstep b s = exec (.payCsBad b) s ∧
      exec (.payCsBad b) s = .next (endFeed .checksumMismatch
        { s with rxBuf := s.rxBuf.set s.cfg.size b, st := .start1, expectedLength := 0, fillCount := 0 })

/-- The three payload transitions complete wherever the arrays have the bytes they reach, with all that they leave unchanged. That a
transition has its row's effect in every state, those outside the row's condition and the invariants among them, is the model's choice
(log 15); inside them AwaitingPayload says what the rules say. -/
def Obligations.PayloadTransitionsComplete : Prop :=
  ∀ (s : State) (b : Byte), s.fillCount.toNat < s.rxBuf.length →
    exec (.payStore b) s = .next { s with rxBuf := s.rxBuf.set s.fillCount.toNat b, fillCount := s.fillCount + 1 } ∧
    exec (.payCsBad b) s = .next (endFeed .checksumMismatch
      { s with rxBuf := s.rxBuf.set s.fillCount.toNat b, st := .start1, expectedLength := 0, fillCount := 0 }) ∧
    (s.recordOut.length = s.cfg.size → s.cfg.size ≤ s.rxBuf.length →
      exec (.payCsOk b) s = .next (endFeed (.frameReady ((s.rxBuf.set s.fillCount.toNat b).take s.cfg.size))
        { s with rxBuf := s.rxBuf.set s.fillCount.toNat b, recordOut := (s.rxBuf.set s.fillCount.toNat b).take s.cfg.size,
                 st := .start1, expectedLength := 0, fillCount := 0 }))

/-- No byte of `rx_buf` that the frame in progress has not written is ever seen, and neither is what `record_out` held: two machines that
differ in such bytes alone take the same step, give the same results, and differ afterwards at most in such bytes; `record_out` keeps
what it held in both or comes to be the same in both (10_state.md R35; 42_decoder_fsm.md R127, R128; 93_implementation_defined.md U7,
U8). Two clauses are the model's choice and no rule's: at a CONFIG, that the free bytes of `rx_buf` and `record_out` are the same in both,
by the tie of equal counters (log 3); and that both are sent the same bytes, by equal appends in store (log 8). -/
def Obligations.UnwrittenBytesAreNeverSeen : Prop :=
  ∀ s s' : State, s.Inv → s'.Inv → s.sameWritten s' →
    (∀ t, step s = .next t → ∃ t', step s' = .next t' ∧ t.sameWritten t' ∧ t.outputs = t'.outputs ∧
      (t.recordOut = t'.recordOut ∨ (t.recordOut = s.recordOut ∧ t'.recordOut = s'.recordOut))) ∧
    (∀ r, step s = .refused r → step s' = .refused r)

/-- What ends a FEED with a result: the result is given, FEED is no longer in progress, and a DRAIN with FEEDs left comes next unless
the result is NeedMoreData; every other field is as before (43_decoder_ops.md R154; 30_encoding.md R82). -/
def Obligations.EndOfFeed : Prop :=
  ∀ (o : Output) (s : State),
    endFeed o s = { s with
      feeding := false, drainLeft := none, outputs := s.outputs ++ [o]
      script := match s.drainLeft with
        | none => s.script
        | some k => if o = .needMoreData then s.script else .drain k :: s.script }

/-- R129: in AWAITING_PAYLOAD no value of the byte matters to where it is stored or to when the state is left. -/
def Obligations.NoMarkerScanningInsideAFrame : Prop :=
  ∀ (s : State) (b : Byte), s.Inv → s.st = .payload →
    ∃ t, dstep b s = .next t ∧ t.rxBuf = s.rxBuf.set s.fillCount.toNat b ∧ s.fillCount.toNat < s.rxBuf.length ∧
      (s.fillCount.toNat < s.cfg.size → t.st = .payload ∧ t.fillCount.toNat = s.fillCount.toNat + 1) ∧
      (s.fillCount.toNat = s.cfg.size → t.st = .start1)

/-- R130: each transition that completes or rejects a frame ends in AWAITING_START1 with both counters 0, and takes no
further byte. -/
def Obligations.ReturnToAwaitingStart1 : Prop :=
  ∀ (s t : State) (b : Byte),
    (exec (.lenBad b) s = .next t ∨ exec (.payCsOk b) s = .next t ∨ exec (.payCsBad b) s = .next t) →
    t.st = .start1 ∧ t.expectedLength = 0 ∧ t.fillCount = 0 ∧ t.src = s.src

/-- R131: from every state that meets the invariants, for every byte, exactly one transition is selected; it leaves a next state in
which the header and payload invariants hold. -/
def Obligations.TransitionsAreTotal : Prop :=
  ∀ (s : State) (b : Byte), s.Inv →
    ∃ tr, (∀ tr' : Transition, tr'.selects (keyContext b s) (makeKey s.st b) = true ↔ tr' = tr) ∧
      ∃ t, exec (tr.instr b) s = .next t ∧ dstep b s = .next t ∧
        (t.st ≠ .payload → t.expectedLength = 0 ∧ t.fillCount = 0) ∧
        (t.st = .payload → t.expectedLength = t.cfg.n ∧ t.fillCount.toNat ≤ t.cfg.size)

/-- The reach of a transition: it leaves the encoder's operands, the configuration, the source and the environment as they are, and the
script but for the rest of a DRAIN put back before it; only PAY_CS_OK writes `record_out`, only the payload transitions write `rx_buf`, at `fill_count` alone
(42_decoder_fsm.md R120; 10_state.md R24, R25). -/
def Obligations.TransitionFrame : Prop :=
  ∀ (tr : Transition) (s t : State) (b : Byte), exec (tr.instr b) s = .next t →
    t.recIn = s.recIn ∧ t.dst = s.dst ∧ t.cap = s.cap ∧ t.cfg = s.cfg ∧ t.src = s.src ∧ t.arrivals = s.arrivals ∧
    t.fresh = s.fresh ∧
    (tr ≠ .payCsOk → t.recordOut = s.recordOut) ∧
    (t.script = s.script ∨ ∃ k, s.drainLeft = some k ∧ t.script = .drain k :: s.script) ∧
    (∀ i, i ≠ s.fillCount.toNat → t.rxBuf[i]? = s.rxBuf[i]?) ∧
    (tr ≠ .payStore → tr ≠ .payCsOk → tr ≠ .payCsBad → t.rxBuf = s.rxBuf)

/-! ### FEED -/

/-- The START1 guard: in AWAITING_START1 FEED reads exactly when the source holds at least `START1_MIN_AVAIL` bytes, and otherwise
returns NeedMoreData having consumed nothing (43_decoder_ops.md R151). -/
def Obligations.FeedGuardInAwaitingStart1 : Prop :=
  ∀ s : State, s.cfg.wf = true → s.st = .start1 →
    if s.src.length < s.cfg.minAvail then exec .feed s = .next (endFeed .needMoreData s)
    else ∃ b rest, s.src = b :: rest ∧ exec .feed s = dstep b { s with feeding := true, src := rest }

/-- R152: in the other states FEED reads exactly when the source holds a byte, and otherwise returns NeedMoreData with all progress
kept. -/
def Obligations.FeedEmptySourceCheck : Prop :=
  ∀ s : State, s.st ≠ .start1 →
    (s.src = [] → exec .feed s = .next (endFeed .needMoreData s) ∧ (endFeed .needMoreData s).st = s.st ∧
      (endFeed .needMoreData s).expectedLength = s.expectedLength ∧
      (endFeed .needMoreData s).fillCount = s.fillCount ∧ (endFeed .needMoreData s).rxBuf = s.rxBuf) ∧
    (∀ (b : Byte) (rest : List Byte), s.src = b :: rest → exec .feed s = dstep b { s with feeding := true, src := rest })

/-- From every state that meets the invariants FEED's micro-step completes: with NeedMoreData where it may not read, and otherwise as
the transition the oldest byte selects (43_decoder_ops.md R150, R153, R155). -/
def Obligations.FeedMicroStepCompletes : Prop :=
  ∀ s : State, s.Inv → ∃ t, exec .feed s = .next t ∧
    ((mayRead s = false ∧ t = endFeed .needMoreData s) ∨
      mayRead s = true ∧ ∃ b rest, s.src = b :: rest ∧
        exec (decodeKey (keyContext b s) (makeKey s.st b)) { s with feeding := true, src := rest } = .next t)

/-- R159: the micro-step in which FEED returns NeedMoreData changes no register, no array and no byte of the source. -/
def Obligations.NeedMoreDataChangesNothing : Prop :=
  ∀ s t : State, exec .feed s = .next t → t.outputs = s.outputs ++ [.needMoreData] →
    t.decoder = s.decoder ∧ t.src = s.src ∧ t.recIn = s.recIn ∧ t.dst = s.dst ∧ t.cap = s.cap ∧ t.arrivals = s.arrivals ∧
    t.feeding = false

/-- R161: what is left when FEED returns NeedMoreData. -/
def Obligations.WhatIsLeftAtNeedMoreData : Prop :=
  ∀ s t : State, s.cfg.wf = true → exec .feed s = .next t → t.outputs = s.outputs ++ [.needMoreData] →
    (t.st = .start1 → t.src.length < t.cfg.minAvail) ∧ (t.st ≠ .start1 → t.src = [])

/-- Which state each command reaches (10_state.md R29): ENCODE leaves the decoder, the source and its operands; FEED leaves the
encoder's operands and `dst`; RESET leaves every array, the source and the operands. None writes the configuration. -/
def Obligations.CommandsReachOnlyTheirState : Prop :=
  (∀ s t : State, exec .encode s = .next t → t.decoder = s.decoder ∧ t.src = s.src ∧ t.recIn = s.recIn ∧ t.cap = s.cap ∧
    t.arrivals = s.arrivals ∧ t.script = s.script ∧ t.feeding = s.feeding) ∧
  (∀ s t : State, exec .feed s = .next t → t.recIn = s.recIn ∧ t.dst = s.dst ∧ t.cap = s.cap ∧ t.cfg = s.cfg ∧
    t.arrivals = s.arrivals ∧
    (t.recordOut ≠ s.recordOut → ∃ r, t.outputs = s.outputs ++ [.frameReady r] ∧ r = t.recordOut.take t.cfg.size)) ∧
  (∀ s t : State, exec .reset s = .next t →
    t.rxBuf = s.rxBuf ∧ t.recordOut = s.recordOut ∧ t.recIn = s.recIn ∧ t.dst = s.dst ∧
    t.cap = s.cap ∧ t.cfg = s.cfg ∧ t.src = s.src ∧ t.arrivals = s.arrivals ∧ t.script = s.script ∧ t.feeding = s.feeding)

/-- R158: in every environment, whatever it appends and for how long: every micro-step of a FEED that does not return consumes one
byte; a FEED returns after at most `k + m + 1` micro-steps, for `k` bytes at its start and `m` appended while it runs, if the appends
come to an end; a FEED in AWAITING_START1 never returns while the environment keeps the source above the guard with bytes that are no
first marker; and the closed machine has such a run. -/
def Obligations.FeedTerminates : Prop :=
  (∀ (g : Environment) (k : Nat) (s t : State), s.Inv → s.atFeed →
    (∀ j u, 1 ≤ j → j ≤ k → runIn g j s = .next u → u.feeding = true) → runIn g k s = .next t →
    t.src.length + k = s.src.length + (Environment.bytes g k).length) ∧
  (∀ (g : Environment) (s : State), s.Inv → s.atFeed → (∃ m, ∀ i, m ≤ i → g i = []) →
    ∃ j t, 1 ≤ j ∧ runIn g j s = .next t ∧ t.feeding = false ∧
      (∀ i u, 1 ≤ i → i < j → runIn g i s = .next u → u.feeding = true) ∧
      j ≤ s.src.length + (Environment.bytes g j).length + 1) ∧
  (∀ (g : Environment) (s : State), s.Inv → s.atFeed → s.st = .start1 → (0x06 : Byte) ∉ s.src → (∀ i, (0x06 : Byte) ∉ g i) →
    (∀ k, s.cfg.minAvail + k ≤ s.src.length + (Environment.bytes g (k + 1)).length) →
    ∀ k, 1 ≤ k → ∃ t, runIn g k s = .next t ∧ t.feeding = true) ∧
  ∃ s : State, s.Inv ∧ s.feeding = true ∧ ∀ k, ∃ t, run k s = .next t ∧ t.feeding = true

/-- R82: DRAIN issues at most `n` FEEDs and stops after the first that gives NeedMoreData; its results are theirs. -/
def Obligations.DrainStopsAtNeedMoreData : Prop :=
  ∀ (n k : Nat) (s t : State), s.Inv → s.feeding = false → s.script = [.drain n] → s.outputs = [] → run k s = .next t →
    t.outputs.length ≤ n ∧ (∀ i, t.outputs[i]? = some .needMoreData → i + 1 = t.outputs.length) ∧
    (t.feeding = false → t.script = [] → t.outputs.length = n ∨ t.outputs.getLast? = some .needMoreData)

/-! ### Invariants and whole-machine rules -/

/-- R31, R32: every step from a state that meets the invariants leads to one that meets them. -/
def Obligations.EveryStepKeepsTheInvariants : Prop := ∀ s t : State, s.Inv → step s = .next t → t.Inv

/-- Nothing in this block traps (60_exceptions.md R180): no step from a state that meets the invariants ends in a fault. -/
def Obligations.NothingTraps : Prop := ∀ (s : State) (f : Fault), s.Inv → step s ≠ .fault f

/-- The only refusals are those of 60_exceptions.md R184, each for its reason; everything else goes on. Of a CONFIG's two reasons `N` is
looked at first, which is the model's choice (log 17). -/
def Obligations.RefusedOnlyAsListed : Prop :=
  ∀ s : State, s.Inv →
    (∃ t, step s = .next t) ∨
    (s.feeding = false ∧ ∃ q rest, s.script = q :: rest ∧
      ((∃ w o, q = .command w o ∧ (opField w = 0b11#2 ∨ zeroField w ≠ 0) ∧ step s = .refused .reservedCommand) ∨
       (∃ o, q = .command 0x01 o ∧
         (match o with | none => s.recIn | some ops => ops.record).length ≠ s.cfg.size ∧ step s = .refused .recordLength) ∨
       (∃ k r src, q = .config 0 k r src ∧ step s = .refused .zeroRecordSize) ∨
       (∃ n r src, q = .config n (some 0) r src ∧ n ≠ 0 ∧ step s = .refused .badParameter)))

/-- `record_out` changes only with a FrameReady, whose record it then holds (10_state.md R25; 70_reset_and_hazards.md R222). -/
def Obligations.RecordOutChangesOnlyOnFrameReady : Prop :=
  ∀ s t : State, s.Inv → ¬ s.atConfig → step s = .next t → t.recordOut ≠ s.recordOut →
    t.outputs = s.outputs ++ [.frameReady t.recordOut]

/-- After SizeMismatch or ChecksumMismatch, in a FEED just issued as in one in progress, the decoder is in AWAITING_START1 with both counters 0, has taken one byte and nothing of
`record_out`; after BufferTooSmall nothing has changed (60_exceptions.md R181). -/
def Obligations.ErrorsRecoverLocally : Prop :=
  (∀ s t : State, step s = .next t →
    (t.outputs = s.outputs ++ [.sizeMismatch] ∨ t.outputs = s.outputs ++ [.checksumMismatch]) →
    t.st = .start1 ∧ t.expectedLength = 0 ∧ t.fillCount = 0 ∧ t.feeding = false ∧ t.recordOut = s.recordOut ∧
      ∃ b, s.src ++ s.arrivals.head = b :: t.src) ∧
  (∀ s t : State, exec .encode s = .next t → t.outputs = s.outputs ++ [.bufferTooSmall] →
    t = { s with outputs := s.outputs ++ [.bufferTooSmall] })

/-- With the re-test option off and a guard of at least 3, a step never leaves a header half read between two FEEDs
(43_decoder_ops.md R167). -/
def Obligations.HeadersAreNeverStranded : Prop :=
  ∀ s t : State, s.Inv → s.HeaderUnbroken → step s = .next t → t.HeaderUnbroken

/-- R167: under the same premises a FEED that returns NeedMoreData leaves AWAITING_START1 or AWAITING_PAYLOAD; without them it can
stop in AWAITING_START2 or AWAITING_LENGTH. -/
def Obligations.WhereFeedCanStop : Prop :=
  (∀ s t : State, s.Inv → s.HeaderUnbroken → s.cfg.retest = false → 3 ≤ s.cfg.minAvail →
    step s = .next t → t.outputs = s.outputs ++ [.needMoreData] → t.st = .start1 ∨ t.st = .payload) ∧
  (∃ (s t : State) (k : Nat), s.Inv ∧ s.HeaderUnbroken ∧ s.cfg.retest = true ∧ s.src = [0x06, 0x06, 0x06] ∧
    s.script = [feedStmt] ∧ run k s = .next t ∧ t.feeding = false ∧ t.st = .start2 ∧ t.outputs = s.outputs ++ [.needMoreData]) ∧
  (∃ (s t : State) (k : Nat), s.Inv ∧ s.HeaderUnbroken ∧ s.cfg.minAvail < 3 ∧ s.script = [feedStmt] ∧
    run k s = .next t ∧ t.feeding = false ∧ t.st = .length ∧ t.outputs = s.outputs ++ [.needMoreData])

/-- Instances share nothing: a step of one leaves the others and depends on its own state alone, steps of two commute, and in every
interleaving each instance comes to what its own run gives it (60_exceptions.md R191). That a fault or a refusal ends the run of its own
instance and no other's is the model's choice (log 16). -/
def Obligations.InstancesShareNothing : Prop :=
  (∀ (j k : Nat) (sys : System), j ≠ k → (stepAt k sys)[j]? = sys[j]?) ∧
  (∀ (k : Nat) (sys : System) (s : State), sys[k]? = some (.next s) → (stepAt k sys)[k]? = some (step s)) ∧
  (∀ (k : Nat) (sys : System), (∀ s, sys[k]? ≠ some (.next s)) → stepAt k sys = sys) ∧
  (∀ (j k : Nat) (sys : System), runSystem [j, k] sys = runSystem [k, j] sys) ∧
  (∀ (order : List Nat) (k : Nat) (sys : System) (s : State), sys[k]? = some (.next s) →
    (runSystem order sys)[k]? = some (run (order.count k) s))

/-! ### Laws of the reassembler -/

/-- R115: an encoded record, delivered in any chunks to a decoder with an empty source, decodes to the record: exactly one FrameReady,
and no error. -/
def Obligations.RoundTrip : Prop :=
  ∀ (s e : State) (r : List Byte) (chunks : List (List Byte)),
    s.Inv → s.feeding = false → s.st = .start1 → s.src = [] → s.quiet → s.cfg.minAvail ≤ s.cfg.size + 4 →
    s.recIn = r → r.length = s.cfg.size → s.cfg.size + 4 ≤ s.cap → exec .encode s = .next e →
    chunks.flatten = Memory.readBytes e.dst 0 (s.cfg.size + 4) →
    ∃ k t, run k { e with script := chunks.flatMap fun c => [.push c, feedStmt] } = .next t ∧
      t.script = [] ∧ t.feeding = false ∧ t.recordOut = r ∧ t.src = [] ∧
      news t.outputs = news s.outputs ++ [.encodeOk, .frameReady r]

/-- Along every run of FEEDs the decoder's state and its results are those of `DSTEP` over the bytes consumed so far, in the order in
which they arrived, whatever the arrivals (43_decoder_ops.md R162, points 1 and 2). -/
def Obligations.FeedIsDstepOverTheConsumedBytes : Prop :=
  ∀ (k : Nat) (s t : State), s.Inv → onlyFeeds s.script → run k s = .next t →
    ∃ consumed u, s.src ++ s.arrivals.bytes k = consumed ++ t.src ∧ absorb consumed s = .next u ∧
      u.decoder = t.decoder ∧ news u.outputs = news t.outputs

/-- Two runs of FEEDs over the same stream, however it is split into arrivals and wherever the FEEDs stand, that have both taken
all they can, agree on what is left, on the decoder's state and on the results (43_decoder_ops.md R162, point 3). -/
def Obligations.FragmentationInvariance : Prop :=
  ∀ (k₁ k₂ : Nat) (s₁ s₂ t₁ t₂ : State),
    s₁.Inv → s₂.Inv → s₁.decoder = s₂.decoder → news s₁.outputs = news s₂.outputs →
    onlyFeeds s₁.script → onlyFeeds s₂.script → run k₁ s₁ = .next t₁ → run k₂ s₂ = .next t₂ →
    s₁.src ++ s₁.arrivals.bytes k₁ = s₂.src ++ s₂.arrivals.bytes k₂ → t₁.exhausted → t₂.exhausted →
    t₁.src = t₂.src ∧ t₁.decoder = t₂.decoder ∧ news t₁.outputs = news t₂.outputs

/-- R163: `k` valid frames back to back are decoded in order by `k` FEEDs, and one more gives NeedMoreData. -/
def Obligations.BackToBackFrames : Prop :=
  ∀ (s : State) (records : List (List Byte)),
    s.Inv → s.feeding = false → s.st = .start1 → s.quiet → s.cfg.minAvail ≤ s.cfg.size + 4 →
    (∀ r ∈ records, r.length = s.cfg.size) → s.src = records.flatMap (frame s.cfg.n) →
    s.script = List.replicate (records.length + 1) feedStmt →
    ∃ k t, run k s = .next t ∧ t.script = [] ∧ t.feeding = false ∧ t.src = [] ∧
      t.outputs = s.outputs ++ records.map .frameReady ++ [.needMoreData]

/-- R164: junk without `0x06, 0x85, N` never gives a frame and always leads back to AWAITING_START1. -/
def Obligations.JunkIsSkipped : Prop :=
  ∀ (k : Nat) (s t : State),
    s.Inv → s.feeding = false → s.st = .start1 → s.cfg.retest = false → 3 ≤ s.cfg.minAvail → onlyFeeds s.script →
    junkFor s.cfg.n (s.src ++ s.arrivals.bytes k) → run k s = .next t →
    ∃ new, t.outputs = s.outputs ++ new ∧ (∀ o ∈ new, o = .needMoreData ∨ o = .sizeMismatch) ∧
      (t.feeding = false → t.st = .start1) ∧
      (.sizeMismatch ∈ new → ∃ u x v, s.src ++ s.arrivals.bytes k = u ++ [0x06, 0x85, x] ++ v ∧ x ≠ s.cfg.n)

/-- R165: a frame with exactly one payload or checksum byte changed gives ChecksumMismatch, and all of it is consumed: whatever the
arrivals, `DSTEP` over its bytes says so (FeedIsDstepOverTheConsumedBytes), and where the source holds it, one FEED. -/
def Obligations.OneChangedByteIsRejected : Prop :=
  (∀ (s : State) (r : List Byte) (i : Nat) (x : Byte),
    s.Inv → s.st = .start1 → r.length = s.cfg.size → i < s.cfg.size + 1 → (r ++ [checksum s.cfg.n r])[i]? ≠ some x →
    ∃ t, absorb ([0x06, 0x85, s.cfg.n] ++ (r ++ [checksum s.cfg.n r]).set i x) s = .next t ∧ t.st = .start1 ∧
      t.outputs = s.outputs ++ [.checksumMismatch] ∧ t.recordOut = s.recordOut) ∧
  ∀ (s : State) (r rest : List Byte) (i : Nat) (x : Byte) (q : List Stmt),
    s.Inv → s.feeding = false → s.st = .start1 → s.quiet → r.length = s.cfg.size → i < s.cfg.size + 1 →
    (r ++ [checksum s.cfg.n r])[i]? ≠ some x →
    s.src = [0x06, 0x85, s.cfg.n] ++ (r ++ [checksum s.cfg.n r]).set i x ++ rest → s.cfg.minAvail ≤ s.src.length →
    s.script = feedStmt :: q →
    ∃ k t, run k s = .next t ∧ t.feeding = false ∧ t.script = q ∧ t.src = rest ∧
      t.outputs = s.outputs ++ [.checksumMismatch] ∧ t.recordOut = s.recordOut

/-- R166: a header with a wrong length gives SizeMismatch, from AWAITING_START1 and from AWAITING_START2; the byte after it is the next to
be read, in AWAITING_START1; and a valid frame there is found by the next FEED. Whatever the arrivals, `DSTEP` over the header's bytes
says so. -/
def Obligations.WrongLengthIsRejected : Prop :=
  (∀ (s : State) (x : Byte) (header : List Byte), s.Inv → x ≠ s.cfg.n →
    (s.st = .start1 ∧ header = [0x06, 0x85, x]) ∨ (s.st = .start2 ∧ header = [0x85, x]) →
    ∃ t, absorb header s = .next t ∧ t.st = .start1 ∧ t.fillCount = 0 ∧ t.rxBuf = s.rxBuf ∧
      t.outputs = s.outputs ++ [.sizeMismatch]) ∧
  (∀ (s : State) (x : Byte) (rest : List Byte) (q : List Stmt),
    s.Inv → s.feeding = false → s.st = .start1 → s.quiet → x ≠ s.cfg.n → s.src = [0x06, 0x85, x] ++ rest →
    s.cfg.minAvail ≤ s.src.length → s.script = feedStmt :: q →
    ∃ t, run 3 s = .next t ∧ t.feeding = false ∧ t.st = .start1 ∧ t.script = q ∧ t.src = rest ∧
      t.outputs = s.outputs ++ [.sizeMismatch]) ∧
  (∀ (s : State) (x : Byte) (rest : List Byte) (q : List Stmt),
    s.Inv → s.feeding = false → s.st = .start2 → s.quiet → x ≠ s.cfg.n → s.src = [0x85, x] ++ rest →
    s.script = feedStmt :: q →
    ∃ t, run 2 s = .next t ∧ t.feeding = false ∧ t.st = .start1 ∧ t.script = q ∧ t.src = rest ∧
      t.outputs = s.outputs ++ [.sizeMismatch]) ∧
  (∀ (s : State) (x : Byte) (r : List Byte),
    s.Inv → s.feeding = false → s.st = .start1 → s.quiet → x ≠ s.cfg.n → r.length = s.cfg.size →
    s.src = [0x06, 0x85, x] ++ frame s.cfg.n r → s.cfg.minAvail ≤ s.cfg.size + 4 → s.script = [feedStmt, feedStmt] →
    ∃ k t, run k s = .next t ∧ t.feeding = false ∧ t.script = [] ∧ t.src = [] ∧
      t.outputs = s.outputs ++ [.sizeMismatch, .frameReady r])

/-! ### The script -/

/-- The statements that have no word: PUSH appends its bytes to the source, PUSHDST `dst[0..N+4)`, DRAIN issues FEED with one FEED
fewer left, DRAIN 0 and an empty script do nothing, each after the environment's append (30_encoding.md R81, R82). The script as a field
of the state is the model's choice (log 9). -/
def Obligations.StatementsWithoutAWord : Prop :=
  ∀ (s : State) (rest : List Stmt), s.feeding = false →
    (∀ bs, s.script = .push bs :: rest →
      step s = .next { deliver s with script := rest, src := s.src ++ s.arrivals.head ++ bs }) ∧
    (s.script = .pushDst :: rest → step s = .next { deliver s with
      script := rest, src := s.src ++ s.arrivals.head ++ Memory.readBytes s.dst 0 (s.cfg.size + 4) }) ∧
    (∀ k, s.script = .drain (k + 1) :: rest →
      step s = exec .feed { deliver s with script := rest, drainLeft := some k }) ∧
    (s.script = .drain 0 :: rest → step s = .next { deliver s with script := rest }) ∧
    (s.script = [] → step s = .next (deliver s))
end

