-- ==== Sys2Proof/Laws/Checksum.lean ====
section
/-! SUPPORT. The laws of the checksum unit and of the frame's layout. -/

namespace Sys2Proof.Machine

@[simp] theorem foldXor_nil (seed : Byte) : foldXor seed [] = seed := rfl

@[simp] theorem foldXor_cons (seed b : Byte) (s : List Byte) : foldXor seed (b :: s) = foldXor (seed ^^^ b) s := rfl

@[simp] theorem foldXor_append (seed : Byte) (s t : List Byte) : foldXor seed (s ++ t) = foldXor (foldXor seed s) t := by
  simp [foldXor, List.foldl_append]

/-- The seed comes out of the fold. -/
theorem foldXor_seed : ∀ (s : List Byte) (seed : Byte), foldXor seed s = seed ^^^ foldXor 0 s
  | [], seed => by simp
  | b :: s, seed => by
    rw [foldXor_cons, foldXor_cons, foldXor_seed s (seed ^^^ b), foldXor_seed s (0 ^^^ b)]
    simp [BitVec.xor_assoc]

@[simp] theorem length_frame (n : Byte) (r : List Byte) : (frame n r).length = r.length + 4 := by
  simp [frame]

end Sys2Proof.Machine
end

