-- ==== Sys2Proof/Laws/Decode.lean ====
section
/-! SUPPORT. The fields of a key, and the two readings of the transition table. -/

namespace Sys2Proof

@[simp] theorem DecState.ofCode_code (st : DecState) : DecState.ofCode st.code = st := by cases st <;> decide

@[simp] theorem DecState.code_ofCode (c : BitVec 2) : (DecState.ofCode c).code = c := by revert c; decide

@[simp] theorem keyByte_makeKey (st : DecState) (b : Byte) : keyByte (makeKey st b) = b := by
  apply BitVec.eq_of_getLsbD_eq
  intro i hi
  rw [keyByte, BitVec.getLsbD_extractLsb', makeKey, BitVec.getLsbD_append]
  simp [hi]

@[simp] theorem keyState_makeKey (st : DecState) (b : Byte) : keyState (makeKey st b) = st := by
  have h : (makeKey st b).extractLsb' 8 2 = st.code := by
    apply BitVec.eq_of_getLsbD_eq
    intro i hi
    rw [BitVec.getLsbD_extractLsb', makeKey, BitVec.getLsbD_append]
    simp [hi]
  rw [keyState, h, DecState.ofCode_code]

/-- A key is its two fields. -/
@[simp] theorem makeKey_fields (k : Key) : makeKey (keyState k) (keyByte k) = k := by
  apply BitVec.eq_of_getLsbD_eq
  intro i hi
  simp only [makeKey, keyState, keyByte, DecState.code_ofCode, BitVec.getLsbD_append, BitVec.getLsbD_extractLsb']
  by_cases h : i < 8
  · simp [h]
  · have h2 : i - 8 < 2 := by omega
    have h3 : 8 + (i - 8) = i := by omega
    simp [h, h2, h3]

/-- Every key is a state and a byte. -/
theorem key_cases (k : Key) : ∃ st b, k = makeKey st b := ⟨keyState k, keyByte k, (makeKey_fields k).symm⟩

/-- What a key made of a state and a byte selects. -/
theorem decodeTransition_makeKey (c : KeyContext) (st : DecState) (b : Byte) :
    decodeTransition c (makeKey st b) =
      match st with
      | .start1 => if b = mark0 then .s1Match else .s1Skip
      | .start2 => if b = mark1 then .s2Match else if b = mark0 ∧ c.retest = true then .s2Retest else .s2Fail
      | .length => if b = c.n then .lenOk else .lenBad
      | .payload => if c.storeFits then .payStore else if c.checksumMatches then .payCsOk else .payCsBad := by
  cases st <;> simp [decodeTransition]

/-- The byte inside a transition's instruction is the one its row was selected for. -/
theorem instr_of_selected (c : KeyContext) (st : DecState) (b : Byte) :
    encode (decodeKey c (makeKey st b)) = .key (makeKey st b) := by
  simp only [decodeKey, decodeTransition_makeKey, keyByte_makeKey]
  cases st <;> simp only
  case start1 => split <;> simp_all [Transition.instr, encode, mark0]
  case start2 =>
    split
    · simp_all [Transition.instr, encode, mark1]
    · split <;> simp_all [Transition.instr, encode, mark0]
  case length => split <;> simp [Transition.instr, encode]
  case payload => split <;> [skip; split] <;> simp [Transition.instr, encode]

end Sys2Proof
end

