-- ==== Sys2Proof/Laws/Memory.lean ====
section
/-! SUPPORT. The laws of the destination buffer (read after write, canonical form) and of the arrays. -/

namespace Sys2Proof.Machine

/-! ### Reading after writing -/

theorem Memory.read_cell_same (a : Nat) (b : Byte) (rest : Memory) (h : Memory.read rest a = Memory.unlisted) :
    Memory.read (Memory.cell a b rest) a = b := by
  unfold Memory.cell
  split <;> simp_all [Memory.read]

theorem Memory.read_cell_other (a c : Nat) (b : Byte) (rest : Memory) (h : c ≠ a) :
    Memory.read (Memory.cell a b rest) c = Memory.read rest c := by
  unfold Memory.cell
  split <;> simp_all [Memory.read]

/-- Below the lowest listed index everything is unlisted. -/
theorem Memory.read_below : ∀ (m : Memory) (lo a : Nat), Memory.wfFrom lo m = true → a < lo →
    Memory.read m a = Memory.unlisted
  | [], _, _, _, _ => rfl
  | (k, v) :: rest, lo, a, h, ha => by
    simp only [Memory.wfFrom, Bool.and_eq_true, decide_eq_true_eq] at h
    have hk : a ≠ k := by omega
    simp only [Memory.read, if_neg hk]
    exact Memory.read_below rest (k + 1) a h.2 (by omega)

/-- Reading another index than the one written gives what it gave before; no premise on the form is needed. -/
theorem Memory.read_write_other : ∀ (m : Memory) (a c : Nat) (b : Byte), c ≠ a →
    Memory.read (Memory.write m a b) c = Memory.read m c
  | [], a, c, b, h => by simp [Memory.write, Memory.read_cell_other a c b [] h]
  | (k, v) :: rest, a, c, b, h => by
    unfold Memory.write
    split
    · exact Memory.read_cell_other a c b _ h
    · split
      · subst_vars
        rw [Memory.read_cell_other _ c b _ h]
        simp [Memory.read, h]
      · simp only [Memory.read, Memory.read_write_other rest a c b h]

/-- Reading the index written gives the byte written. -/
theorem Memory.read_write_same : ∀ (m : Memory) (lo a : Nat) (b : Byte), Memory.wfFrom lo m = true →
    Memory.read (Memory.write m a b) a = b
  | [], _, a, b, _ => Memory.read_cell_same a b [] rfl
  | (k, v) :: rest, lo, a, b, h => by
    have hr : Memory.wfFrom (k + 1) rest = true := by
      simp only [Memory.wfFrom, Bool.and_eq_true] at h
      exact h.2
    unfold Memory.write
    split
    case isTrue hlt =>
      refine Memory.read_cell_same a b _ ?_
      have hne : a ≠ k := by omega
      simp only [Memory.read, if_neg hne]
      exact Memory.read_below rest (k + 1) a hr (by omega)
    case isFalse hge =>
      split
      case isTrue heq =>
        subst heq
        exact Memory.read_cell_same a b _ (Memory.read_below rest (a + 1) a hr (by omega))
      case isFalse hne =>
        simp only [Memory.read, if_neg hne]
        exact Memory.read_write_same rest (k + 1) a b hr

/-! ### The canonical form -/

theorem Memory.wfFrom_mono : ∀ (m : Memory) (lo hi : Nat), lo ≤ hi → Memory.wfFrom hi m = true → Memory.wfFrom lo m = true
  | [], _, _, _, _ => rfl
  | (k, v) :: rest, lo, hi, hl, h => by
    simp only [Memory.wfFrom, Bool.and_eq_true, decide_eq_true_eq] at h ⊢
    exact ⟨⟨by omega, h.1.2⟩, h.2⟩

theorem Memory.wfFrom_cell (lo a : Nat) (b : Byte) (rest : Memory) (hl : lo ≤ a) (h : Memory.wfFrom (a + 1) rest = true) :
    Memory.wfFrom lo (Memory.cell a b rest) = true := by
  unfold Memory.cell
  split
  · exact Memory.wfFrom_mono rest lo (a + 1) (by omega) h
  · simp_all [Memory.wfFrom]

theorem Memory.wfFrom_write : ∀ (m : Memory) (lo a : Nat) (b : Byte), lo ≤ a → Memory.wfFrom lo m = true →
    Memory.wfFrom lo (Memory.write m a b) = true
  | [], lo, a, b, hl, _ => Memory.wfFrom_cell lo a b [] hl rfl
  | (k, v) :: rest, lo, a, b, hl, h => by
    simp only [Memory.wfFrom, Bool.and_eq_true, decide_eq_true_eq] at h
    unfold Memory.write
    split
    case isTrue hlt =>
      refine Memory.wfFrom_cell lo a b _ hl ?_
      simp only [Memory.wfFrom, Bool.and_eq_true, decide_eq_true_eq]
      exact ⟨⟨by omega, h.1.2⟩, h.2⟩
    case isFalse hge =>
      split
      case isTrue heq =>
        subst heq
        exact Memory.wfFrom_cell lo a b rest hl h.2
      case isFalse hne =>
        simp only [Memory.wfFrom, Bool.and_eq_true, decide_eq_true_eq]
        exact ⟨h.1, Memory.wfFrom_write rest (k + 1) a b (by omega) h.2⟩

/-- A write keeps the canonical form. -/
theorem Memory.wf_write (m : Memory) (a : Nat) (b : Byte) (h : Memory.wf m = true) : Memory.wf (Memory.write m a b) = true :=
  Memory.wfFrom_write m 0 a b (Nat.zero_le a) h

/-- A write of several bytes keeps the canonical form. -/
theorem Memory.wf_writeBytes : ∀ (bs : List Byte) (m : Memory) (a : Nat), Memory.wf m = true →
    Memory.wf (Memory.writeBytes m a bs) = true
  | [], _, _, h => h
  | b :: bs, m, a, h => Memory.wf_writeBytes bs _ (a + 1) (Memory.wf_write m a b h)

/-! ### Several bytes -/

/-- Outside the bytes written every index reads as before. -/
theorem Memory.read_writeBytes_outside : ∀ (bs : List Byte) (m : Memory) (a c : Nat), c < a ∨ a + bs.length ≤ c →
    Memory.read (Memory.writeBytes m a bs) c = Memory.read m c
  | [], _, _, _, _ => rfl
  | b :: bs, m, a, c, h => by
    simp only [List.length_cons] at h
    simp only [Memory.writeBytes]
    rw [Memory.read_writeBytes_outside bs _ (a + 1) c (by omega), Memory.read_write_other m a c b (by omega)]

/-- The bytes written read back in order. -/
theorem Memory.readBytes_writeBytes : ∀ (bs : List Byte) (m : Memory) (a : Nat), Memory.wf m = true →
    Memory.readBytes (Memory.writeBytes m a bs) a bs.length = bs
  | [], _, _, _ => rfl
  | b :: bs, m, a, h => by
    simp only [List.length_cons, Memory.readBytes, Memory.writeBytes]
    rw [Memory.read_writeBytes_outside bs _ (a + 1) a (by omega), Memory.read_write_same m 0 a b h,
      Memory.readBytes_writeBytes bs _ (a + 1) (Memory.wf_write m a b h)]

@[simp] theorem Memory.length_readBytes : ∀ (n : Nat) (m : Memory) (a : Nat), (Memory.readBytes m a n).length = n
  | 0, _, _ => rfl
  | n + 1, m, a => by simp [Memory.readBytes, Memory.length_readBytes n m (a + 1)]

/-! ### The arrays -/

/-- A store of one byte inside the array is a change of that element. -/
theorem arrayWrite_one (a : List Byte) (i : Nat) (b : Byte) (h : i < a.length) : arrayWrite a i [b] = some (a.set i b) := by
  unfold arrayWrite
  rw [if_pos (by simpa using h), List.set_eq_take_append_cons_drop, if_pos h]
  simp

/-- A store of one byte outside the array does not happen. -/
theorem arrayWrite_outside (a : List Byte) (i : Nat) (b : Byte) (h : a.length ≤ i) : arrayWrite a i [b] = none := by
  unfold arrayWrite
  rw [if_neg (by simp; omega)]

/-- A write over the whole array. -/
theorem arrayWrite_all (a v : List Byte) (h : v.length = a.length) : arrayWrite a 0 v = some v := by
  simp [arrayWrite, h]

/-- A read of the first `n` elements. -/
theorem arrayRead_first (a : List Byte) (n : Nat) (h : n ≤ a.length) : arrayRead a 0 n = some (a.take n) := by
  simp [arrayRead, h]

end Sys2Proof.Machine
end

