-- ==== Sys2Proof/Laws/State.lean ====
section
/-! SUPPORT. What every named update of the state does to every field, so that no proof unfolds a record update. -/

namespace Sys2Proof.Machine

/-! ### srcAppend -/

@[simp] theorem srcAppend_st (bs : List Byte) (s : State) : (srcAppend bs s).st = s.st := rfl
@[simp] theorem srcAppend_expectedLength (bs : List Byte) (s : State) : (srcAppend bs s).expectedLength = s.expectedLength := rfl
@[simp] theorem srcAppend_fillCount (bs : List Byte) (s : State) : (srcAppend bs s).fillCount = s.fillCount := rfl
@[simp] theorem srcAppend_rxBuf (bs : List Byte) (s : State) : (srcAppend bs s).rxBuf = s.rxBuf := rfl
@[simp] theorem srcAppend_recordOut (bs : List Byte) (s : State) : (srcAppend bs s).recordOut = s.recordOut := rfl
@[simp] theorem srcAppend_recIn (bs : List Byte) (s : State) : (srcAppend bs s).recIn = s.recIn := rfl
@[simp] theorem srcAppend_dst (bs : List Byte) (s : State) : (srcAppend bs s).dst = s.dst := rfl
@[simp] theorem srcAppend_cap (bs : List Byte) (s : State) : (srcAppend bs s).cap = s.cap := rfl
@[simp] theorem srcAppend_cfg (bs : List Byte) (s : State) : (srcAppend bs s).cfg = s.cfg := rfl
@[simp] theorem srcAppend_src (bs : List Byte) (s : State) : (srcAppend bs s).src = s.src ++ bs := rfl
@[simp] theorem srcAppend_arrivals (bs : List Byte) (s : State) : (srcAppend bs s).arrivals = s.arrivals := rfl
@[simp] theorem srcAppend_feeding (bs : List Byte) (s : State) : (srcAppend bs s).feeding = s.feeding := rfl
@[simp] theorem srcAppend_drainLeft (bs : List Byte) (s : State) : (srcAppend bs s).drainLeft = s.drainLeft := rfl
@[simp] theorem srcAppend_script (bs : List Byte) (s : State) : (srcAppend bs s).script = s.script := rfl
@[simp] theorem srcAppend_outputs (bs : List Byte) (s : State) : (srcAppend bs s).outputs = s.outputs := rfl
@[simp] theorem srcAppend_fresh (bs : List Byte) (s : State) : (srcAppend bs s).fresh = s.fresh := rfl

/-! ### respond -/

@[simp] theorem respond_st (o : Output) (s : State) : (respond o s).st = s.st := rfl
@[simp] theorem respond_expectedLength (o : Output) (s : State) : (respond o s).expectedLength = s.expectedLength := rfl
@[simp] theorem respond_fillCount (o : Output) (s : State) : (respond o s).fillCount = s.fillCount := rfl
@[simp] theorem respond_rxBuf (o : Output) (s : State) : (respond o s).rxBuf = s.rxBuf := rfl
@[simp] theorem respond_recordOut (o : Output) (s : State) : (respond o s).recordOut = s.recordOut := rfl
@[simp] theorem respond_recIn (o : Output) (s : State) : (respond o s).recIn = s.recIn := rfl
@[simp] theorem respond_dst (o : Output) (s : State) : (respond o s).dst = s.dst := rfl
@[simp] theorem respond_cap (o : Output) (s : State) : (respond o s).cap = s.cap := rfl
@[simp] theorem respond_cfg (o : Output) (s : State) : (respond o s).cfg = s.cfg := rfl
@[simp] theorem respond_src (o : Output) (s : State) : (respond o s).src = s.src := rfl
@[simp] theorem respond_arrivals (o : Output) (s : State) : (respond o s).arrivals = s.arrivals := rfl
@[simp] theorem respond_feeding (o : Output) (s : State) : (respond o s).feeding = s.feeding := rfl
@[simp] theorem respond_drainLeft (o : Output) (s : State) : (respond o s).drainLeft = s.drainLeft := rfl
@[simp] theorem respond_script (o : Output) (s : State) : (respond o s).script = s.script := rfl
@[simp] theorem respond_outputs (o : Output) (s : State) : (respond o s).outputs = s.outputs ++ [o] := rfl
@[simp] theorem respond_fresh (o : Output) (s : State) : (respond o s).fresh = s.fresh := rfl

/-! ### returnToStart1 -/

@[simp] theorem returnToStart1_st (s : State) : (returnToStart1 s).st = .start1 := rfl
@[simp] theorem returnToStart1_expectedLength (s : State) : (returnToStart1 s).expectedLength = 0 := rfl
@[simp] theorem returnToStart1_fillCount (s : State) : (returnToStart1 s).fillCount = 0 := rfl
@[simp] theorem returnToStart1_rxBuf (s : State) : (returnToStart1 s).rxBuf = s.rxBuf := rfl
@[simp] theorem returnToStart1_recordOut (s : State) : (returnToStart1 s).recordOut = s.recordOut := rfl
@[simp] theorem returnToStart1_recIn (s : State) : (returnToStart1 s).recIn = s.recIn := rfl
@[simp] theorem returnToStart1_dst (s : State) : (returnToStart1 s).dst = s.dst := rfl
@[simp] theorem returnToStart1_cap (s : State) : (returnToStart1 s).cap = s.cap := rfl
@[simp] theorem returnToStart1_cfg (s : State) : (returnToStart1 s).cfg = s.cfg := rfl
@[simp] theorem returnToStart1_src (s : State) : (returnToStart1 s).src = s.src := rfl
@[simp] theorem returnToStart1_arrivals (s : State) : (returnToStart1 s).arrivals = s.arrivals := rfl
@[simp] theorem returnToStart1_feeding (s : State) : (returnToStart1 s).feeding = s.feeding := rfl
@[simp] theorem returnToStart1_drainLeft (s : State) : (returnToStart1 s).drainLeft = s.drainLeft := rfl
@[simp] theorem returnToStart1_script (s : State) : (returnToStart1 s).script = s.script := rfl
@[simp] theorem returnToStart1_outputs (s : State) : (returnToStart1 s).outputs = s.outputs := rfl
@[simp] theorem returnToStart1_fresh (s : State) : (returnToStart1 s).fresh = s.fresh := rfl

/-! ### lendOperands -/

@[simp] theorem lendOperands_st (o : Operands) (s : State) : (lendOperands o s).st = s.st := rfl
@[simp] theorem lendOperands_expectedLength (o : Operands) (s : State) : (lendOperands o s).expectedLength = s.expectedLength := rfl
@[simp] theorem lendOperands_fillCount (o : Operands) (s : State) : (lendOperands o s).fillCount = s.fillCount := rfl
@[simp] theorem lendOperands_rxBuf (o : Operands) (s : State) : (lendOperands o s).rxBuf = s.rxBuf := rfl
@[simp] theorem lendOperands_recordOut (o : Operands) (s : State) : (lendOperands o s).recordOut = s.recordOut := rfl
@[simp] theorem lendOperands_recIn (o : Operands) (s : State) : (lendOperands o s).recIn = o.record := rfl
@[simp] theorem lendOperands_cap (o : Operands) (s : State) : (lendOperands o s).cap = o.cap := rfl
@[simp] theorem lendOperands_cfg (o : Operands) (s : State) : (lendOperands o s).cfg = s.cfg := rfl
@[simp] theorem lendOperands_src (o : Operands) (s : State) : (lendOperands o s).src = s.src := rfl
@[simp] theorem lendOperands_arrivals (o : Operands) (s : State) : (lendOperands o s).arrivals = s.arrivals := rfl
@[simp] theorem lendOperands_feeding (o : Operands) (s : State) : (lendOperands o s).feeding = s.feeding := rfl
@[simp] theorem lendOperands_drainLeft (o : Operands) (s : State) : (lendOperands o s).drainLeft = s.drainLeft := rfl
@[simp] theorem lendOperands_script (o : Operands) (s : State) : (lendOperands o s).script = s.script := rfl
@[simp] theorem lendOperands_outputs (o : Operands) (s : State) : (lendOperands o s).outputs = s.outputs := rfl
@[simp] theorem lendOperands_fresh (o : Operands) (s : State) : (lendOperands o s).fresh = s.fresh := rfl

/-! ### newCodec -/

@[simp] theorem newCodec_st (c : Config) (q : List Byte) (s : State) : (newCodec c q s).st = .start1 := rfl
@[simp] theorem newCodec_expectedLength (c : Config) (q : List Byte) (s : State) : (newCodec c q s).expectedLength = 0 := rfl
@[simp] theorem newCodec_fillCount (c : Config) (q : List Byte) (s : State) : (newCodec c q s).fillCount = 0 := rfl
@[simp] theorem newCodec_rxBuf (c : Config) (q : List Byte) (s : State) : (newCodec c q s).rxBuf = freeBytes s.fresh (c.size + 1) := rfl
@[simp] theorem newCodec_recordOut (c : Config) (q : List Byte) (s : State) : (newCodec c q s).recordOut = freeBytes (s.fresh + (c.size + 1)) c.size := rfl
@[simp] theorem newCodec_recIn (c : Config) (q : List Byte) (s : State) : (newCodec c q s).recIn = s.recIn := rfl
@[simp] theorem newCodec_dst (c : Config) (q : List Byte) (s : State) : (newCodec c q s).dst = s.dst := rfl
@[simp] theorem newCodec_cap (c : Config) (q : List Byte) (s : State) : (newCodec c q s).cap = s.cap := rfl
@[simp] theorem newCodec_cfg (c : Config) (q : List Byte) (s : State) : (newCodec c q s).cfg = c := rfl
@[simp] theorem newCodec_src (c : Config) (q : List Byte) (s : State) : (newCodec c q s).src = q := rfl
@[simp] theorem newCodec_arrivals (c : Config) (q : List Byte) (s : State) : (newCodec c q s).arrivals = s.arrivals := rfl
@[simp] theorem newCodec_feeding (c : Config) (q : List Byte) (s : State) : (newCodec c q s).feeding = false := rfl
@[simp] theorem newCodec_drainLeft (c : Config) (q : List Byte) (s : State) : (newCodec c q s).drainLeft = none := rfl
@[simp] theorem newCodec_script (c : Config) (q : List Byte) (s : State) : (newCodec c q s).script = s.script := rfl
@[simp] theorem newCodec_outputs (c : Config) (q : List Byte) (s : State) : (newCodec c q s).outputs = s.outputs := rfl
@[simp] theorem newCodec_fresh (c : Config) (q : List Byte) (s : State) : (newCodec c q s).fresh = s.fresh + (c.size + 1) + c.size := rfl

/-! ### pushDst -/

@[simp] theorem pushDst_st (s : State) : (pushDst s).st = s.st := rfl
@[simp] theorem pushDst_expectedLength (s : State) : (pushDst s).expectedLength = s.expectedLength := rfl
@[simp] theorem pushDst_fillCount (s : State) : (pushDst s).fillCount = s.fillCount := rfl
@[simp] theorem pushDst_rxBuf (s : State) : (pushDst s).rxBuf = s.rxBuf := rfl
@[simp] theorem pushDst_recordOut (s : State) : (pushDst s).recordOut = s.recordOut := rfl
@[simp] theorem pushDst_recIn (s : State) : (pushDst s).recIn = s.recIn := rfl
@[simp] theorem pushDst_dst (s : State) : (pushDst s).dst = s.dst := rfl
@[simp] theorem pushDst_cap (s : State) : (pushDst s).cap = s.cap := rfl
@[simp] theorem pushDst_cfg (s : State) : (pushDst s).cfg = s.cfg := rfl
@[simp] theorem pushDst_src (s : State) : (pushDst s).src = s.src ++ Memory.readBytes s.dst 0 s.cfg.frameLen := rfl
@[simp] theorem pushDst_arrivals (s : State) : (pushDst s).arrivals = s.arrivals := rfl
@[simp] theorem pushDst_feeding (s : State) : (pushDst s).feeding = s.feeding := rfl
@[simp] theorem pushDst_drainLeft (s : State) : (pushDst s).drainLeft = s.drainLeft := rfl
@[simp] theorem pushDst_script (s : State) : (pushDst s).script = s.script := rfl
@[simp] theorem pushDst_outputs (s : State) : (pushDst s).outputs = s.outputs := rfl
@[simp] theorem pushDst_fresh (s : State) : (pushDst s).fresh = s.fresh := rfl

/-! ### endFeed -/

@[simp] theorem endFeed_st (o : Output) (s : State) : (endFeed o s).st = s.st := by
  unfold endFeed; split <;> [rfl; (split <;> rfl)]
@[simp] theorem endFeed_expectedLength (o : Output) (s : State) : (endFeed o s).expectedLength = s.expectedLength := by
  unfold endFeed; split <;> [rfl; (split <;> rfl)]
@[simp] theorem endFeed_fillCount (o : Output) (s : State) : (endFeed o s).fillCount = s.fillCount := by
  unfold endFeed; split <;> [rfl; (split <;> rfl)]
@[simp] theorem endFeed_rxBuf (o : Output) (s : State) : (endFeed o s).rxBuf = s.rxBuf := by
  unfold endFeed; split <;> [rfl; (split <;> rfl)]
@[simp] theorem endFeed_recordOut (o : Output) (s : State) : (endFeed o s).recordOut = s.recordOut := by
  unfold endFeed; split <;> [rfl; (split <;> rfl)]
@[simp] theorem endFeed_recIn (o : Output) (s : State) : (endFeed o s).recIn = s.recIn := by
  unfold endFeed; split <;> [rfl; (split <;> rfl)]
@[simp] theorem endFeed_dst (o : Output) (s : State) : (endFeed o s).dst = s.dst := by
  unfold endFeed; split <;> [rfl; (split <;> rfl)]
@[simp] theorem endFeed_cap (o : Output) (s : State) : (endFeed o s).cap = s.cap := by
  unfold endFeed; split <;> [rfl; (split <;> rfl)]
@[simp] theorem endFeed_cfg (o : Output) (s : State) : (endFeed o s).cfg = s.cfg := by
  unfold endFeed; split <;> [rfl; (split <;> rfl)]
@[simp] theorem endFeed_src (o : Output) (s : State) : (endFeed o s).src = s.src := by
  unfold endFeed; split <;> [rfl; (split <;> rfl)]
@[simp] theorem endFeed_arrivals (o : Output) (s : State) : (endFeed o s).arrivals = s.arrivals := by
  unfold endFeed; split <;> [rfl; (split <;> rfl)]
@[simp] theorem endFeed_feeding (o : Output) (s : State) : (endFeed o s).feeding = false := by
  unfold endFeed; split <;> [rfl; (split <;> rfl)]
@[simp] theorem endFeed_drainLeft (o : Output) (s : State) : (endFeed o s).drainLeft = none := by
  unfold endFeed; split <;> [rfl; (split <;> rfl)]
@[simp] theorem endFeed_outputs (o : Output) (s : State) : (endFeed o s).outputs = s.outputs ++ [o] := by
  unfold endFeed; split <;> [rfl; (split <;> rfl)]
@[simp] theorem endFeed_fresh (o : Output) (s : State) : (endFeed o s).fresh = s.fresh := by
  unfold endFeed; split <;> [rfl; (split <;> rfl)]

/-! ### deliver -/

@[simp] theorem deliver_st (s : State) : (deliver s).st = s.st := rfl
@[simp] theorem deliver_expectedLength (s : State) : (deliver s).expectedLength = s.expectedLength := rfl
@[simp] theorem deliver_fillCount (s : State) : (deliver s).fillCount = s.fillCount := rfl
@[simp] theorem deliver_rxBuf (s : State) : (deliver s).rxBuf = s.rxBuf := rfl
@[simp] theorem deliver_recordOut (s : State) : (deliver s).recordOut = s.recordOut := rfl
@[simp] theorem deliver_recIn (s : State) : (deliver s).recIn = s.recIn := rfl
@[simp] theorem deliver_dst (s : State) : (deliver s).dst = s.dst := rfl
@[simp] theorem deliver_cap (s : State) : (deliver s).cap = s.cap := rfl
@[simp] theorem deliver_cfg (s : State) : (deliver s).cfg = s.cfg := rfl
@[simp] theorem deliver_src (s : State) : (deliver s).src = s.src ++ s.arrivals.head := rfl
@[simp] theorem deliver_feeding (s : State) : (deliver s).feeding = s.feeding := rfl
@[simp] theorem deliver_drainLeft (s : State) : (deliver s).drainLeft = s.drainLeft := rfl
@[simp] theorem deliver_script (s : State) : (deliver s).script = s.script := rfl
@[simp] theorem deliver_outputs (s : State) : (deliver s).outputs = s.outputs := rfl
@[simp] theorem deliver_fresh (s : State) : (deliver s).fresh = s.fresh := rfl

/-! ### Lengths -/

@[simp] theorem length_freeBytes (k n : Nat) : (freeBytes k n).length = n := by simp [freeBytes]

/-! ### The fields that depend on a case -/

/-- The appends still to come after one delivery. -/
@[simp] theorem deliver_arrivals (s : State) : (deliver s).arrivals = s.arrivals.tail := rfl

/-- The script after a FEED: only a DRAIN with a result that is news comes back. -/
theorem endFeed_script (o : Output) (s : State) :
    (endFeed o s).script = s.script ∨ ∃ k, s.drainLeft = some k ∧ o ≠ .needMoreData ∧ (endFeed o s).script = .drain k :: s.script := by
  unfold endFeed
  cases h : s.drainLeft with
  | none => exact .inl rfl
  | some k =>
    by_cases ho : o = .needMoreData
    · exact .inl (by simp [ho])
    · exact .inr ⟨k, rfl, ho, by simp [ho]⟩

/-- Without a DRAIN the end of FEED leaves the script. -/
@[simp] theorem endFeed_script_of_none (o : Output) (s : State) (h : s.drainLeft = none) :
    (endFeed o s).script = s.script := by
  unfold endFeed; simp [h]

/-- `NeedMoreData` leaves the script. -/
@[simp] theorem endFeed_needMoreData_script (s : State) : (endFeed .needMoreData s).script = s.script := by
  unfold endFeed; cases s.drainLeft <;> rfl

end Sys2Proof.Machine
end

