-- ==== Sys2Proof/Laws/Ops.lean ====
section
/-! SUPPORT. What each shared operation can do, said once. -/

namespace Sys2Proof.Machine

/-! ### The byte source -/

theorem mayRead_iff (s : State) :
    mayRead s = true ↔ (s.st = .start1 → s.cfg.minAvail ≤ s.src.length) ∧ s.src ≠ [] := by
  cases h : s.src <;> simp [mayRead, srcAvail, h, imp_iff_not_or]

/-- FEED reads the oldest byte, or it may not read. -/
theorem readForFeed_cases (s : State) :
    (mayRead s = false ∧ readForFeed s = none) ∨
      ∃ b rest, s.src = b :: rest ∧ mayRead s = true ∧ readForFeed s = some (b, { s with src := rest }) := by
  cases h : mayRead s with
  | false => exact .inl ⟨rfl, by simp [readForFeed, h]⟩
  | true =>
    have hs := ((mayRead_iff s).mp h).2
    cases hsrc : s.src with
    | nil => exact absurd hsrc hs
    | cons b rest => exact .inr ⟨b, rest, rfl, rfl, by simp [readForFeed, h, srcRead, hsrc]⟩

/-- A FEED in progress is allowed the same reads. -/
@[simp] theorem mayRead_feeding (s : State) (f : Bool) : mayRead { s with feeding := f } = mayRead s := rfl

/-! ### The store and the copy of AWAITING_PAYLOAD -/

theorem storeByte_inside (b : Byte) (s : State) (h : s.fillCount.toNat < s.rxBuf.length) :
    storeByte b s = some { s with rxBuf := s.rxBuf.set s.fillCount.toNat b, fillCount := s.fillCount + 1 } := by
  simp [storeByte, arrayWrite_one _ _ _ h]

theorem storeByte_outside (b : Byte) (s : State) (h : s.rxBuf.length ≤ s.fillCount.toNat) : storeByte b s = none := by
  simp [storeByte, arrayWrite_outside _ _ _ h]

/-- Everything a store can answer. -/
theorem storeByte_cases (b : Byte) (s : State) :
    (s.rxBuf.length ≤ s.fillCount.toNat ∧ storeByte b s = none) ∨
      (s.fillCount.toNat < s.rxBuf.length ∧
        storeByte b s = some { s with rxBuf := s.rxBuf.set s.fillCount.toNat b, fillCount := s.fillCount + 1 }) := by
  by_cases h : s.fillCount.toNat < s.rxBuf.length
  · exact .inr ⟨h, storeByte_inside b s h⟩
  · exact .inl ⟨by omega, storeByte_outside b s (by omega)⟩

theorem copyRecord_full (s : State) (hr : s.cfg.size ≤ s.rxBuf.length) (ho : s.recordOut.length = s.cfg.size) :
    copyRecord s = .ok { s with recordOut := s.rxBuf.take s.cfg.size } := by
  unfold copyRecord
  rw [arrayRead_first _ _ hr]
  simp only
  rw [arrayWrite_all _ _ (by simp [ho, hr])]

/-- A copy that happens changes `record_out` alone. -/
theorem copyRecord_ok (s t : State) (h : copyRecord s = .ok t) : ∃ r, t = { s with recordOut := r } := by
  unfold copyRecord at h
  split at h
  · cases h
  · split at h
    · cases h
    · exact ⟨_, (Except.ok.inj h).symm⟩

/-! ### The end of a transition -/

@[simp] theorem conclude_unfinished (s : State) : conclude .unfinished s = s := rfl
@[simp] theorem conclude_complete (s : State) :
    conclude .complete s = endFeed (.frameReady (s.recordOut.take s.cfg.size)) s := rfl
@[simp] theorem conclude_errSize (s : State) : conclude .errSize s = endFeed .sizeMismatch s := rfl
@[simp] theorem conclude_errChecksum (s : State) : conclude .errChecksum s = endFeed .checksumMismatch s := rfl

/-! ### The transitions -/

/-- The instruction of a transition means what the transition does. -/
theorem exec_instr (t : Transition) (b : Byte) (s : State) : exec (t.instr b) s = runTransition t b s := by
  cases t <;> rfl

/-- Everything a transition can answer, on every state: a fault outside the arrays, or one of the rows of R132. -/
theorem runTransition_next (tr : Transition) (b : Byte) (s t : State) (h : runTransition tr b s = .next t) :
    (∃ st el fc, t = { s with st := st, expectedLength := el, fillCount := fc }) ∨
    (tr = .lenBad ∧ t = endFeed .sizeMismatch (returnToStart1 { s with expectedLength := b })) ∨
    (tr = .payStore ∧ s.fillCount.toNat < s.rxBuf.length ∧
      t = { s with rxBuf := s.rxBuf.set s.fillCount.toNat b, fillCount := s.fillCount + 1 }) ∨
    (tr = .payCsBad ∧ s.fillCount.toNat < s.rxBuf.length ∧
      t = endFeed .checksumMismatch (returnToStart1
        { s with rxBuf := s.rxBuf.set s.fillCount.toNat b, fillCount := s.fillCount + 1 })) ∨
    (tr = .payCsOk ∧ s.fillCount.toNat < s.rxBuf.length ∧ ∃ r,
      t = endFeed (.frameReady (r.take s.cfg.size)) (returnToStart1
        { s with rxBuf := s.rxBuf.set s.fillCount.toNat b, fillCount := s.fillCount + 1, recordOut := r })) := by
  cases tr <;> simp only [runTransition] at h
  case s1Match => exact .inl ⟨.start2, s.expectedLength, s.fillCount, (Host.Outcome.next.inj h).symm⟩
  case s1Skip => exact .inl ⟨.start1, s.expectedLength, s.fillCount, (Host.Outcome.next.inj h).symm⟩
  case s2Match => exact .inl ⟨.length, s.expectedLength, s.fillCount, (Host.Outcome.next.inj h).symm⟩
  case s2Retest => exact .inl ⟨.start2, s.expectedLength, s.fillCount, (Host.Outcome.next.inj h).symm⟩
  case s2Fail => exact .inl ⟨.start1, s.expectedLength, s.fillCount, (Host.Outcome.next.inj h).symm⟩
  case lenOk => exact .inl ⟨.payload, b, 0, (Host.Outcome.next.inj h).symm⟩
  case lenBad => exact .inr (.inl ⟨rfl, (Host.Outcome.next.inj h).symm⟩)
  case payStore =>
    unfold execPayStore at h
    obtain ⟨-, hs⟩ | ⟨hi, hs⟩ := storeByte_cases b s <;> rw [hs] at h
    · cases h
    · exact .inr (.inr (.inl ⟨rfl, hi, (Host.Outcome.next.inj h).symm⟩))
  case payCsBad =>
    unfold execPayCsBad at h
    obtain ⟨-, hs⟩ | ⟨hi, hs⟩ := storeByte_cases b s <;> rw [hs] at h
    · cases h
    · exact .inr (.inr (.inr (.inl ⟨rfl, hi, (Host.Outcome.next.inj h).symm⟩)))
  case payCsOk =>
    unfold execPayCsOk at h
    obtain ⟨-, hs⟩ | ⟨hi, hs⟩ := storeByte_cases b s <;> rw [hs] at h
    · cases h
    · simp only at h
      split at h
      · cases h
      · rename_i u hu
        obtain ⟨r, rfl⟩ := copyRecord_ok _ _ hu
        exact .inr (.inr (.inr (.inr ⟨rfl, hi, r, (Host.Outcome.next.inj h).symm⟩)))

/-- Outside `rx_buf` the three payload transitions stop (log 12); no state that meets the invariants is there. -/
theorem payload_outside_stops (b : Byte) (s : State) (h : s.rxBuf.length ≤ s.fillCount.toNat) :
    exec (.payStore b) s = .fault (.arrayIndex .rxBuf) ∧ exec (.payCsOk b) s = .fault (.arrayIndex .rxBuf) ∧
      exec (.payCsBad b) s = .fault (.arrayIndex .rxBuf) := by
  simp [exec, execPayStore, execPayCsOk, execPayCsBad, storeByte_outside b s h]

/-! ### The commands -/

/-- FEED's micro-step: it returns, or it reads the oldest byte and runs the transition of that byte. -/
theorem execFeed_cases (s : State) :
    (mayRead s = false ∧ exec .feed s = .next (endFeed .needMoreData s)) ∨
      ∃ b rest, s.src = b :: rest ∧ mayRead s = true ∧ exec .feed s = dstep b { s with feeding := true, src := rest } := by
  simp only [exec, execFeed]
  obtain ⟨h, hr⟩ | ⟨b, rest, hs, h, hr⟩ := readForFeed_cases ({ s with feeding := true } : State) <;> rw [hr]
  · exact .inl ⟨h, rfl⟩
  · exact .inr ⟨b, rest, hs, h, rfl⟩

/-- ENCODE's three answers. -/
theorem execEncode_cases (s : State) :
    (s.recIn.length ≠ s.cfg.size ∧ exec .encode s = .refused .recordLength) ∨
    (s.recIn.length = s.cfg.size ∧ s.cap < s.cfg.frameLen ∧ exec .encode s = .next (respond .bufferTooSmall s)) ∨
    (s.recIn.length = s.cfg.size ∧ s.cfg.frameLen ≤ s.cap ∧ exec .encode s =
      .next (respond .encodeOk { s with dst := Memory.writeBytes s.dst 0 (frame s.cfg.n s.recIn) })) := by
  simp only [exec, execEncode, bufferTooSmall]
  by_cases h : s.recIn.length = s.cfg.size
  · by_cases hc : s.cap < s.cfg.frameLen
    · exact .inr (.inl ⟨h, hc, by simp [h, hc]⟩)
    · exact .inr (.inr ⟨h, by omega, by simp [h, hc]⟩)
  · exact .inl ⟨h, by simp [h]⟩

end Sys2Proof.Machine
end

