-- ==== Sys2Proof/Laws/Step.lean ====
section
/-! SUPPORT. What a step can do, said once, and the laws of runs. -/

namespace Sys2Proof.Machine

/-- The next micro-instruction of a FEED in progress, run in the state the byte was read in, is FEED's micro-step. -/
theorem fetch_feeding (d : State) (h : d.feeding = true) :
    (match fetch d with
      | .run i t => exec i t
      | .done o => o) = exec .feed d := by
  have he : ({ d with feeding := true } : State) = d := by
    rw [← h]
  simp only [fetch, h, if_true, exec, execFeed, he]
  cases hr : readForFeed d with
  | none => simp only [he, hr]
  | some p => exact exec_instr _ _ _

/-- While FEED is in progress a step is one micro-step of FEED. -/
theorem step_feeding (s : State) (h : s.feeding = true) : step s = exec .feed (deliver s) :=
  fetch_feeding (deliver s) h

/-- An idle machine with nothing to issue keeps its state. -/
theorem step_idle (s : State) (h : s.feeding = false) (hs : s.script = []) : step s = .next (deliver s) := by
  simp [step, fetch, h, hs]

/-- An idle machine issues its next statement. -/
theorem step_issue (s : State) (q : Stmt) (rest : List Stmt) (h : s.feeding = false) (hs : s.script = q :: rest) :
    step s = match issue q { deliver s with script := rest } with
      | .run i t => exec i t
      | .done o => o := by
  simp only [step, fetch, deliver_feeding, h, deliver_script, hs]
  rfl

/-- Everything a step can be. -/
theorem step_cases (s : State) :
    (s.feeding = true ∧ step s = exec .feed (deliver s)) ∨
    (s.feeding = false ∧ s.script = [] ∧ step s = .next (deliver s)) ∨
    (s.feeding = false ∧ ∃ w o rest, s.script = .command w o :: rest ∧
      step s = exec (decodeCommand w) (lendAny o { deliver s with script := rest })) ∨
    (s.feeding = false ∧ ∃ bs rest, s.script = .push bs :: rest ∧
      step s = .next (srcAppend bs { deliver s with script := rest })) ∨
    (s.feeding = false ∧ ∃ rest, s.script = .pushDst :: rest ∧ step s = .next (pushDst { deliver s with script := rest })) ∨
    (s.feeding = false ∧ ∃ rest, s.script = .drain 0 :: rest ∧ step s = .next { deliver s with script := rest }) ∨
    (s.feeding = false ∧ ∃ k rest, s.script = .drain (k + 1) :: rest ∧
      step s = exec .feed { deliver s with script := rest, drainLeft := some k }) ∨
    (s.feeding = false ∧ ∃ n k r src rest, s.script = .config n k r src :: rest ∧
      step s = runConfig n k r src { deliver s with script := rest }) := by
  cases h : s.feeding with
  | true => exact .inl ⟨rfl, step_feeding s h⟩
  | false =>
    right
    cases hs : s.script with
    | nil => exact .inl ⟨rfl, rfl, step_idle s h hs⟩
    | cons q rest =>
      right
      have hq := step_issue s q rest h hs
      cases q with
      | command w o => exact .inl ⟨rfl, w, o, rest, rfl, hq⟩
      | push bs => exact .inr (.inl ⟨rfl, bs, rest, rfl, hq⟩)
      | pushDst => exact .inr (.inr (.inl ⟨rfl, rest, rfl, hq⟩))
      | drain k =>
        cases k with
        | zero => exact .inr (.inr (.inr (.inl ⟨rfl, rest, rfl, hq⟩)))
        | succ k => exact .inr (.inr (.inr (.inr (.inl ⟨rfl, k, rest, rfl, hq⟩))))
      | config n k r src => exact .inr (.inr (.inr (.inr (.inr ⟨rfl, n, k, r, src, rest, rfl, hq⟩))))

/-- The four commands a word can be. -/
theorem decodeCommand_cases (w : Byte) :
    (w = 0x00 ∧ decodeCommand w = .reset) ∨ (w = 0x01 ∧ decodeCommand w = .encode) ∨
    (w = 0x02 ∧ decodeCommand w = .feed) ∨
    ((w ≠ 0x00 ∧ w ≠ 0x01 ∧ w ≠ 0x02) ∧ ∀ s, exec (decodeCommand w) s = .refused .reservedCommand) := by
  by_cases h0 : w = 0x00
  · subst h0; exact .inl ⟨rfl, by decide⟩
  by_cases h1 : w = 0x01
  · subst h1; exact .inr (.inl ⟨rfl, by decide⟩)
  by_cases h2 : w = 0x02
  · subst h2; exact .inr (.inr (.inl ⟨rfl, by decide⟩))
  refine .inr (.inr (.inr ⟨⟨h0, h1, h2⟩, fun s => ?_⟩))
  have hr : (decodeCommand w = .reservedOp3 w ∨ decodeCommand w = .reservedBit2 w ∨ decodeCommand w = .reservedBit3 w ∨
      decodeCommand w = .reservedBit4 w ∨ decodeCommand w = .reservedBit5 w ∨ decodeCommand w = .reservedBit6 w ∨
      decodeCommand w = .reservedBit7 w) := by
    revert h0 h1 h2; revert w; decide
  rcases hr with h | h | h | h | h | h | h <;> rw [h] <;> rfl

/-! ### Runs -/

@[simp] theorem run_zero (s : State) : run 0 s = .next s := rfl

theorem run_succ_of_next {s t : State} (k : Nat) (h : step s = .next t) : run (k + 1) s = run k t := by
  simp [run, h]

/-- A run that goes on went on at its first step. -/
theorem run_succ_next {k : Nat} {s t : State} (h : run (k + 1) s = .next t) : ∃ u, step s = .next u ∧ run k u = .next t := by
  simp only [run] at h
  split at h
  · exact ⟨_, ‹_›, h⟩
  · cases h
  · cases h

/-- A run of `j + k` steps is a run of `k` after a run of `j`. -/
theorem run_add {j : Nat} {s t : State} (k : Nat) (h : run j s = .next t) : run (j + k) s = run k t := by
  induction j generalizing s with
  | zero => cases h; simp
  | succ j ih =>
    obtain ⟨u, hu, hr⟩ := run_succ_next h
    rw [Nat.add_right_comm, run_succ_of_next _ hu, ih hr]

/-- What every step keeps holds along every run. -/
theorem run_keeps {P : State → Prop} (hstep : ∀ s t, P s → step s = .next t → P t) :
    ∀ {k : Nat} {s t : State}, P s → run k s = .next t → P t
  | 0, _, _, hs, h => by cases h; exact hs
  | _ + 1, _, _, hs, h => by
    obtain ⟨u, hu, hr⟩ := run_succ_next h
    exact run_keeps hstep (hstep _ _ hs hu) hr

/-- The run of Safety.lean is the host's. -/
theorem run_eq_core_run (k : Nat) (s : State) : run k s = Host.Core.run Sys2Proof.core k s := by
  induction k generalizing s with
  | zero => rfl
  | succ k ih =>
    have hs : Sys2Proof.core.step s = step s := rfl
    simp only [run, Host.Core.run, hs]
    cases step s with
    | next t => exact ih t
    | fault f => rfl
    | refused r => rfl

end Sys2Proof.Machine
end

