-- ==== Sys2Proof/Laws/Arrivals.lean ====
section
/-! SUPPORT. The laws of the environment's appends, and the open machine beside the closed one. -/

namespace Sys2Proof.Machine

/-! ### The appends to come -/

@[simp] theorem group_zero (a : Arrivals) : a.group 0 = a.head := rfl
@[simp] theorem group_tail (a : Arrivals) (i : Nat) : a.tail.group i = a.group (i + 1) := rfl
@[simp] theorem bytes_zero (a : Arrivals) : a.bytes 0 = [] := rfl
@[simp] theorem bytes_succ (a : Arrivals) (k : Nat) : a.bytes (k + 1) = a.head ++ a.tail.bytes k := rfl

/-- Groups that are listed come first, in their order. -/
theorem group_soon (gs : List (List Byte)) (l : LaterArrivals) (i : Nat) (h : i < gs.length) :
    Arrivals.group { soon := gs, later := l } i = gs[i] := by
  induction gs generalizing i with
  | nil => simp at h
  | cons g gs ih =>
    cases i with
    | zero => rfl
    | succ i => exact ih i (by simpa using h)

/-- The groups of a free stream, one after another. -/
theorem group_free (k j i : Nat) : Arrivals.group { soon := [], later := .free k j } i = Config.freeArrival k (j + i) := by
  induction i generalizing j with
  | zero => rfl
  | succ i ih =>
    have h := ih (j + 1)
    rw [Nat.add_right_comm] at h
    exact h

@[simp] theorem group_nothing (i : Nat) : Arrivals.nothing.group i = [] := by
  induction i with
  | zero => rfl
  | succ i ih => exact ih

/-- A state with nothing to come is quiet. -/
theorem quiet_of_nothing {s : State} (h : s.arrivals = Arrivals.nothing) : s.quiet := fun i => by rw [h]; exact group_nothing i

/-- Nothing comes to a quiet state. -/
theorem quiet_deliver {s : State} (h : s.quiet) : (deliver s).quiet := fun i => h (i + 1)

@[simp] theorem environment_bytes_succ (g : Environment) (k : Nat) : Environment.bytes g (k + 1) = g 0 ++ Environment.bytes g.later k := rfl

/-- The bytes of the groups in store are those of the environment they make. -/
theorem bytes_eq_environment_bytes (a : Arrivals) (k : Nat) : a.bytes k = Environment.bytes a.group k := by
  induction k generalizing a with
  | zero => rfl
  | succ k ih => exact congrArg (a.head ++ ·) (ih a.tail)

/-! ### The closed machine is the open one in the environment that its state has in store -/

/-- An outcome whose state, if there is one, has other appends in store. -/
def withArrivals (a : Arrivals) : Out → Out
  | .next s => .next { s with arrivals := a }
  | .fault f => .fault f
  | .refused r => .refused r

@[simp] theorem endFeed_withArrivals (o : Output) (a : Arrivals) (s : State) :
    endFeed o { s with arrivals := a } = { endFeed o s with arrivals := a } := by
  cases h : s.drainLeft with
  | none => simp [endFeed, respond, h]
  | some k => by_cases ho : o = .needMoreData <;> simp [endFeed, respond, h, ho]

/-- No transition looks at the appends to come. -/
theorem runTransition_withArrivals (tr : Transition) (b : Byte) (a : Arrivals) (s : State) :
    runTransition tr b { s with arrivals := a } = withArrivals a (runTransition tr b s) := by
  have hst : storeByte b { s with arrivals := a } = (storeByte b s).map fun t => { t with arrivals := a } := by
    cases h : arrayWrite s.rxBuf s.fillCount.toNat [b] <;> simp [storeByte, h]
  cases tr with
  | payStore => simp only [runTransition, execPayStore, hst]; cases storeByte b s <;> rfl
  | payCsBad =>
    simp only [runTransition, execPayCsBad, hst]
    cases storeByte b s with
    | none => rfl
    | some t => exact congrArg Host.Outcome.next (endFeed_withArrivals .checksumMismatch a (returnToStart1 t))
  | payCsOk =>
    simp only [runTransition, execPayCsOk, hst]
    cases storeByte b s with
    | none => rfl
    | some t =>
      simp only [Option.map_some, copyRecord]
      cases arrayRead t.rxBuf 0 t.cfg.size with
      | none => rfl
      | some v =>
        cases h : arrayWrite t.recordOut 0 v with
        | none => simp [h, withArrivals]
        | some out =>
          simp only [h]
          exact congrArg Host.Outcome.next (endFeed_withArrivals (.frameReady (out.take t.cfg.size)) a
            (returnToStart1 { t with recordOut := out }))
  | lenBad =>
    exact congrArg Host.Outcome.next (endFeed_withArrivals .sizeMismatch a (returnToStart1 { s with expectedLength := b }))
  | s1Match => rfl
  | s1Skip => rfl
  | s2Match => rfl
  | s2Retest => rfl
  | s2Fail => rfl
  | lenOk => rfl

/-- FEED does not look at the appends to come. -/
theorem execFeed_withArrivals (a : Arrivals) (s : State) :
    exec .feed { s with arrivals := a } = withArrivals a (exec .feed s) := by
  obtain ⟨h, hf⟩ | ⟨b, rest, hs, h, hf⟩ := execFeed_cases s <;>
    obtain ⟨h', hf'⟩ | ⟨b', rest', hs', h', hf'⟩ := execFeed_cases { s with arrivals := a } <;> rw [hf, hf']
  · simp [withArrivals]
  · exact absurd (h.symm.trans h') (by decide)
  · exact absurd (h'.symm.trans h) (by decide)
  · obtain ⟨rfl, rfl⟩ := List.cons.inj (hs.symm.trans hs')
    exact runTransition_withArrivals _ b a { s with feeding := true, src := rest }

/-- No command looks at the appends to come. -/
theorem execCommand_withArrivals (w : Byte) (a : Arrivals) (s : State) :
    exec (decodeCommand w) { s with arrivals := a } = withArrivals a (exec (decodeCommand w) s) := by
  obtain ⟨-, h⟩ | ⟨-, h⟩ | ⟨-, h⟩ | ⟨-, h⟩ := decodeCommand_cases w
  · rw [h]; rfl
  · rw [h]
    obtain ⟨hl, he⟩ | ⟨hl, hc, he⟩ | ⟨hl, hc, he⟩ := execEncode_cases s <;> rw [he] <;>
      obtain ⟨hl', he'⟩ | ⟨hl', hc', he'⟩ | ⟨hl', hc', he'⟩ := execEncode_cases { s with arrivals := a } <;> rw [he']
    all_goals first | rfl | exact absurd hl hl' | exact absurd hl' hl | exact absurd hc (Nat.not_lt.mpr hc') |
      exact absurd hc' (Nat.not_lt.mpr hc)
  · rw [h]; exact execFeed_withArrivals a s
  · rw [h, h]; rfl

/-- No statement looks at the appends to come. -/
theorem issue_withArrivals (q : Stmt) (a : Arrivals) (s : State) :
    (match issue q { s with arrivals := a } with
      | .run i t => exec i t
      | .done o => o) =
    withArrivals a (match issue q s with
      | .run i t => exec i t
      | .done o => o) := by
  cases q with
  | command w o =>
    cases o with
    | none => exact execCommand_withArrivals w a s
    | some ops => exact execCommand_withArrivals w a (lendOperands ops s)
  | push bs => rfl
  | pushDst => rfl
  | drain k =>
    cases k with
    | zero => rfl
    | succ k => exact execFeed_withArrivals a { s with drainLeft := some k }
  | config n k r src =>
    simp only [issue, runConfig]
    split
    · rfl
    · split <;> rfl

/-- The open machine, said once: a micro-step of FEED, the next statement, or nothing. -/
theorem stepWith_cases (g : List Byte) (s : State) :
    (s.feeding = true ∧ stepWith g s = exec .feed (srcAppend g s)) ∨
    (s.feeding = false ∧ s.script = [] ∧ stepWith g s = .next (srcAppend g s)) ∨
    (s.feeding = false ∧ ∃ q rest, s.script = q :: rest ∧
      stepWith g s = match issue q { srcAppend g s with script := rest } with
        | .run i t => exec i t
        | .done o => o) := by
  by_cases h : s.feeding = true
  · exact .inl ⟨h, fetch_feeding _ h⟩
  · have hf : s.feeding = false := by simpa using h
    cases hs : s.script with
    | nil => exact .inr (.inl ⟨hf, rfl, by simp [stepWith, fetch, hf, hs]⟩)
    | cons q rest =>
      refine .inr (.inr ⟨hf, q, rest, rfl, ?_⟩)
      simp only [stepWith, fetch, srcAppend_feeding, hf, srcAppend_script, hs]
      rfl

/-- No step of the open machine looks at the appends in store. -/
theorem stepWith_withArrivals (g : List Byte) (a : Arrivals) (s : State) :
    stepWith g { s with arrivals := a } = withArrivals a (stepWith g s) := by
  obtain ⟨hf, h⟩ | ⟨hf, hs, h⟩ | ⟨hf, q, rest, hs, h⟩ := stepWith_cases g s <;>
    obtain ⟨hf', h'⟩ | ⟨hf', hs', h'⟩ | ⟨hf', q', rest', hs', h'⟩ := stepWith_cases g { s with arrivals := a } <;> rw [h, h']
  · exact execFeed_withArrivals a (srcAppend g s)
  · exact absurd (hf.symm.trans hf') (by decide)
  · exact absurd (hf.symm.trans hf') (by decide)
  · exact absurd (hf'.symm.trans hf) (by decide)
  · rfl
  · exact absurd (hs.symm.trans hs') (by simp)
  · exact absurd (hf'.symm.trans hf) (by decide)
  · exact absurd (hs'.symm.trans hs) (by simp)
  · obtain ⟨rfl, rfl⟩ := List.cons.inj (hs.symm.trans hs')
    exact issue_withArrivals q a { srcAppend g s with script := rest }

/-- A step of the closed machine is one of the open machine, with the group that is in store. -/
theorem step_eq_stepWith (s : State) : step s = withArrivals s.arrivals.tail (stepWith s.arrivals.head s) := by
  rw [← stepWith_withArrivals]; rfl

@[simp] theorem withArrivals_withArrivals (a b : Arrivals) (o : Out) : withArrivals a (withArrivals b o) = withArrivals a o := by
  cases o <;> rfl

/-- In the open machine what is in store makes no difference. -/
theorem runIn_withArrivals (g : Environment) (k : Nat) (a : Arrivals) (s : State) :
    withArrivals a (runIn g k { s with arrivals := a }) = withArrivals a (runIn g k s) := by
  induction k generalizing g s with
  | zero => rfl
  | succ k ih =>
    simp only [runIn, stepWith_withArrivals]
    cases stepWith (g 0) s with
    | next t => exact ih g.later t
    | fault f => rfl
    | refused r => rfl

/-- A run of the closed machine is one of the open machine, in the environment that the state has in store. -/
theorem run_eq_runIn (k : Nat) (b : Arrivals) (s : State) :
    withArrivals b (run k s) = withArrivals b (runIn s.arrivals.group k s) := by
  induction k generalizing s with
  | zero => rfl
  | succ k ih =>
    simp only [run, runIn, step_eq_stepWith s, group_zero]
    cases stepWith s.arrivals.head s with
    | next t =>
      have h := congrArg (withArrivals b) (runIn_withArrivals s.arrivals.tail.group k s.arrivals.tail t)
      simp only [withArrivals_withArrivals] at h
      exact (ih { t with arrivals := s.arrivals.tail }).trans h
    | fault f => rfl
    | refused r => rfl

/-- Only the first `k` groups matter to `k` steps. -/
theorem runIn_congr {g g' : Environment} {k : Nat} (s : State) (h : ∀ i, i < k → g i = g' i) : runIn g k s = runIn g' k s := by
  induction k generalizing g g' s with
  | zero => rfl
  | succ k ih =>
    simp only [runIn, h 0 (Nat.succ_pos k)]
    cases stepWith (g' 0) s with
    | next t => exact ih t fun i hi => h (i + 1) (by omega)
    | fault f => rfl
    | refused r => rfl

/-- Every run in every environment is a run of the closed machine from a state that has its first groups in store. -/
theorem runIn_eq_run (g : Environment) (k : Nat) (l : LaterArrivals) (b : Arrivals) (s : State) :
    withArrivals b (runIn g k s) =
      withArrivals b (run k { s with arrivals := { soon := (List.range k).map g, later := l } }) := by
  rw [run_eq_runIn]
  have hc := runIn_congr (g := g) (g' := Arrivals.group { soon := (List.range k).map g, later := l }) (k := k) s
    fun i hi => by rw [group_soon _ _ _ (by simpa using hi)]; simp
  have h := congrArg (withArrivals b) (runIn_withArrivals (Arrivals.group { soon := (List.range k).map g, later := l }) k
    { soon := (List.range k).map g, later := l } s)
  simp only [withArrivals_withArrivals] at h
  rw [hc]
  exact h.symm

end Sys2Proof.Machine
end

