-- ==== Sys2Proof/Laws/PerInstr.lean ====
section
/-! SUPPORT. What is said of every instruction as syntax, one lemma for every constructor: the word of a well-formed instruction matches the
row of spec/opcode_table.json it stands for. -/

namespace Sys2Proof.Laws

/-- The mask and match of an instruction's row in spec/opcode_table.json. -/
def tableRow : Instr → Nat × Nat
  | .reset => (255, 0)
  | .encode => (255, 1)
  | .feed => (255, 2)
  | .reservedOp3 _ => (3, 3)
  | .reservedBit2 _ => (4, 4)
  | .reservedBit3 _ => (8, 8)
  | .reservedBit4 _ => (16, 16)
  | .reservedBit5 _ => (32, 32)
  | .reservedBit6 _ => (64, 64)
  | .reservedBit7 _ => (128, 128)
  | .s1Match => (1023, 6)
  | .s1Skip _ => (768, 0)
  | .s2Match => (1023, 389)
  | .s2Retest => (1023, 262)
  | .s2Fail _ => (768, 256)
  | .lenOk _ => (768, 512)
  | .lenBad _ => (768, 512)
  | .payStore _ => (768, 768)
  | .payCsOk _ => (768, 768)
  | .payCsBad _ => (768, 768)

/-- The bits of an encoding, as one number. -/
def encodedBits : Encoded → Nat
  | .command w => w.toNat
  | .key k => k.toNat

/-- The word of a well-formed instruction has the bits its row fixes. -/
def EncodingFits.Statement (i : Instr) : Prop :=
  i.wf = true → encodedBits (encode i) &&& (tableRow i).1 = (tableRow i).2

theorem EncodingFits.reset : EncodingFits.Statement .reset := by unfold EncodingFits.Statement; decide
theorem EncodingFits.encode : EncodingFits.Statement .encode := by unfold EncodingFits.Statement; decide
theorem EncodingFits.feed : EncodingFits.Statement .feed := by unfold EncodingFits.Statement; decide
theorem EncodingFits.reservedOp3 (w : Byte) : EncodingFits.Statement (.reservedOp3 w) := by
  unfold EncodingFits.Statement; revert w; decide
theorem EncodingFits.reservedBit2 (w : Byte) : EncodingFits.Statement (.reservedBit2 w) := by
  unfold EncodingFits.Statement; revert w; decide
theorem EncodingFits.reservedBit3 (w : Byte) : EncodingFits.Statement (.reservedBit3 w) := by
  unfold EncodingFits.Statement; revert w; decide
theorem EncodingFits.reservedBit4 (w : Byte) : EncodingFits.Statement (.reservedBit4 w) := by
  unfold EncodingFits.Statement; revert w; decide
theorem EncodingFits.reservedBit5 (w : Byte) : EncodingFits.Statement (.reservedBit5 w) := by
  unfold EncodingFits.Statement; revert w; decide
theorem EncodingFits.reservedBit6 (w : Byte) : EncodingFits.Statement (.reservedBit6 w) := by
  unfold EncodingFits.Statement; revert w; decide
theorem EncodingFits.reservedBit7 (w : Byte) : EncodingFits.Statement (.reservedBit7 w) := by
  unfold EncodingFits.Statement; revert w; decide
theorem EncodingFits.s1Match : EncodingFits.Statement .s1Match := by unfold EncodingFits.Statement; decide
theorem EncodingFits.s1Skip (b : Byte) : EncodingFits.Statement (.s1Skip b) := by
  unfold EncodingFits.Statement; revert b; decide
theorem EncodingFits.s2Match : EncodingFits.Statement .s2Match := by unfold EncodingFits.Statement; decide
theorem EncodingFits.s2Retest : EncodingFits.Statement .s2Retest := by unfold EncodingFits.Statement; decide
theorem EncodingFits.s2Fail (b : Byte) : EncodingFits.Statement (.s2Fail b) := by
  unfold EncodingFits.Statement; revert b; decide
theorem EncodingFits.lenOk (b : Byte) : EncodingFits.Statement (.lenOk b) := by
  unfold EncodingFits.Statement; revert b; decide
theorem EncodingFits.lenBad (b : Byte) : EncodingFits.Statement (.lenBad b) := by
  unfold EncodingFits.Statement; revert b; decide
theorem EncodingFits.payStore (b : Byte) : EncodingFits.Statement (.payStore b) := by
  unfold EncodingFits.Statement; revert b; decide
theorem EncodingFits.payCsOk (b : Byte) : EncodingFits.Statement (.payCsOk b) := by
  unfold EncodingFits.Statement; revert b; decide
theorem EncodingFits.payCsBad (b : Byte) : EncodingFits.Statement (.payCsBad b) := by
  unfold EncodingFits.Statement; revert b; decide

end Sys2Proof.Laws
end

