-- ==== Sys2Proof/Laws/Transitions.lean ====
section
/-! SUPPORT. Which transition a byte takes, in terms of the state. -/

namespace Sys2Proof.Machine

/-- What the conditions see does not depend on the source or on the FEED in progress. -/
@[simp] theorem keyContext_withSource (b : Byte) (s : State) (f : Bool) (q : List Byte) :
    keyContext b { s with feeding := f, src := q } = keyContext b s := rfl

@[simp] theorem transitionOf_withSource (b : Byte) (s : State) (f : Bool) (q : List Byte) :
    transitionOf b { s with feeding := f, src := q } = transitionOf b s := rfl

@[simp] theorem transitionOf_withDrain (b : Byte) (s : State) (d : Option Nat) :
    transitionOf b { s with drainLeft := d } = transitionOf b s := rfl

/-- The transition of a byte, by the decoder's state. -/
theorem transitionOf_eq (b : Byte) (s : State) :
    transitionOf b s =
      match s.st with
      | .start1 => if b = mark0 then .s1Match else .s1Skip
      | .start2 => if b = mark1 then .s2Match else if b = mark0 ∧ s.cfg.retest = true then .s2Retest else .s2Fail
      | .length => if b = s.cfg.n then .lenOk else .lenBad
      | .payload => if storeFits s then .payStore else if checksumMatches b s then .payCsOk else .payCsBad := by
  rw [transitionOf, decodeTransition_makeKey]
  rfl

/-- The transition depends on nothing but the decoder's view. -/
theorem transitionOf_of_decoder (b : Byte) (s t : State) (h : s.decoder = t.decoder) : transitionOf b s = transitionOf b t := by
  simp only [State.decoder, DecoderView.mk.injEq] at h
  obtain ⟨hst, hel, hfc, hrx, -, hcfg⟩ := h
  simp [transitionOf_eq, storeFits, checksumMatches, hst, hel, hfc, hrx, hcfg]

/-- `N` is at most 255. -/
theorem Config.size_lt (c : Config) : c.size < 256 := c.n.isLt

/-- In a payload state that meets the invariants the counter is at most 255, so its increment is exact (10_state.md R23). -/
theorem fillCount_succ (s : State) (hi : s.Inv) (hp : s.st = .payload) :
    (s.fillCount + 1).toNat = s.fillCount.toNat + 1 := by
  have h1 := (hi.payload hp).2
  have h2 := Config.size_lt s.cfg
  rw [BitVec.toNat_add, Nat.mod_eq_of_lt]
  · rfl
  · simp; omega

/-- In such a state a store leaves the frame unfinished exactly while fewer than `N` bytes are stored. -/
theorem storeFits_iff (s : State) (hi : s.Inv) (hp : s.st = .payload) :
    storeFits s = true ↔ s.fillCount.toNat < s.cfg.size := by
  simp only [storeFits, decide_eq_true_eq, fillCount_succ s hi hp, (hi.payload hp).1, Config.size]
  omega

/-- With all `N` bytes stored, the next byte is right exactly when it is the checksum of the stored payload. -/
theorem checksumMatches_iff (b : Byte) (s : State) (hi : s.Inv) (hp : s.st = .payload) (hf : s.fillCount.toNat = s.cfg.size) :
    checksumMatches b s = true ↔ checksum s.cfg.n (s.rxBuf.take s.cfg.size) = b := by
  have hl : s.cfg.n.toNat = s.cfg.size := rfl
  have hlt : s.cfg.size < s.rxBuf.length := by rw [hi.rxLength]; omega
  have htake : (s.rxBuf.set s.cfg.size b).take s.cfg.size = s.rxBuf.take s.cfg.size := by
    rw [List.take_set, List.set_eq_of_length_le (by simp)]
  simp only [checksumMatches, hf, (hi.payload hp).1, hl, htake, beq_iff_eq]
  rw [List.getElem?_set_self hlt]
  simp [eq_comm]

/-- In a state that meets the invariants the store of a payload state is inside `rx_buf`. -/
theorem fillCount_inside (s : State) (hi : s.Inv) (hp : s.st = .payload) : s.fillCount.toNat < s.rxBuf.length := by
  have := (hi.payload hp).2
  rw [hi.rxLength]
  omega

end Sys2Proof.Machine
end

