-- ==== Sys2Proof/Machine/ScriptText.lean ====
section
/-! DEFINITION. The written form of the command script (30_encoding.md R81, R82): one statement a line, `;` starts a comment, bytes in
hexadecimal as `0xHH` or `HH`, byte lists in brackets. Nothing a step does depends on it. -/

namespace Sys2Proof.Machine

/-- A word of the text, or one of the brackets. -/
abbrev Token := List Char

/-- The word read so far, put before the rest unless it is empty. -/
def endToken (cur : List Char) (rest : List Token) : List Token :=
  if cur.isEmpty then rest else cur.reverse :: rest

/-- The tokens of a line: blanks and commas separate, a bracket is a token of its own, `;` ends the line (log 18). -/
def tokens : List Char → List Char → List Token
  | [], cur => endToken cur []
  | c :: cs, cur =>
    if c = ';' then endToken cur []
    else if c = ' ' ∨ c = '\t' ∨ c = ',' then endToken cur (tokens cs [])
    else if c = '[' ∨ c = ']' then endToken cur ([c] :: tokens cs [])
    else tokens cs (c :: cur)

/-- The place of a character among the digits of a numeral system, which is its value. -/
def digitAmong (c : Char) : List Char → Option Nat
  | [] => none
  | d :: ds => if d = c then some 0 else (digitAmong c ds).map (· + 1)

/-- The value of a decimal digit. -/
def decDigit (c : Char) : Option Nat := digitAmong c "0123456789".toList

/-- The value of a hexadecimal digit, in capitals or not. -/
def hexDigit (c : Char) : Option Nat :=
  (digitAmong c "0123456789ABCDEF".toList).or (digitAmong c "0123456789abcdef".toList)

/-- The digits of a number after the value read so far. -/
def numberFrom : Nat → List Char → Option Nat
  | acc, [] => some acc
  | acc, c :: cs => match decDigit c with
    | none => none
    | some d => numberFrom (acc * 10 + d) cs

/-- A decimal number (log 18). -/
def number (t : Token) : Option Nat := if t.isEmpty then none else numberFrom 0 t

/-- Two hexadecimal digits. -/
def hexPair (a b : Char) : Option Byte :=
  match hexDigit a, hexDigit b with
  | some x, some y => some (BitVec.ofNat 8 (x * 16 + y))
  | _, _ => none

/-- A byte, as `0xHH` or `HH`. -/
def byteToken : Token → Option Byte
  | ['0', 'x', a, b] => hexPair a b
  | [a, b] => hexPair a b
  | _ => none

/-- The bytes up to the closing bracket, and the tokens after it. -/
def bytesToBracket : List Token → Option (List Byte × List Token)
  | [] => none
  | t :: ts =>
    if t = [']'] then some ([], ts)
    else match byteToken t, bytesToBracket ts with
      | some b, some (bs, rest) => some (b :: bs, rest)
      | _, _ => none

/-- A bracketed byte list at the head of the tokens. -/
def byteList : List Token → Option (List Byte × List Token)
  | [] => none
  | t :: ts => if t = ['['] then bytesToBracket ts else none

/-- What stands after a name and its equals sign. -/
def valueOf (name : List Char) (t : Token) : Option Token :=
  if name.isPrefixOf t then some (t.drop name.length) else none

/-- `NAME=<number>`. -/
def setting (name : List Char) (t : Token) : Option Nat := (valueOf name t).bind number

/-- The optional part of CONFIG: `[MIN=<k>] [RETEST=<0or1>]`, in this order (log 18). -/
def configTail (n : Byte) (minAvail : Option Nat) : List Token → Option Stmt
  | [] => some (.config n minAvail none [])
  | [t] => match setting "RETEST=".toList t with
    | some 0 => some (.config n minAvail (some false) [])
    | some 1 => some (.config n minAvail (some true) [])
    | _ => none
  | _ :: _ :: _ => none

/-- The arguments of CONFIG. A new instance starts with an empty byte source (95_test_vectors.md). -/
def configArgs : List Token → Option Stmt
  | [] => none
  | t :: ts => match setting "N=".toList t with
    | none => none
    | some n =>
      if n < 256 then
        match ts with
        | [] => configTail (BitVec.ofNat 8 n) none []
        | u :: us => match setting "MIN=".toList u with
          | some k => configTail (BitVec.ofNat 8 n) (some k) us
          | none => configTail (BitVec.ofNat 8 n) none (u :: us)
      else none

/-- The arguments of ENCODE: `[<N bytes>], C=<c>`. -/
def encodeArgs (ts : List Token) : Option Stmt :=
  match byteList ts with
  | some (bs, [t]) => (setting "C=".toList t).map fun c => .command 0x01 (some { record := bs, cap := c, buffer := none })
  | _ => none

/-- One statement from its tokens; none where they are no statement. -/
def statement : List Token → Option Stmt
  | [] => none
  | t :: ts =>
    if t = "RESET".toList then (if ts.isEmpty then some (.command 0x00 none) else none)
    else if t = "FEED".toList then (if ts.isEmpty then some (.command 0x02 none) else none)
    else if t = "ENCODE".toList then encodeArgs ts
    else if t = "PUSH".toList then
      match byteList ts with
      | some (bs, []) => some (.push bs)
      | _ => none
    else if t = "PUSHDST".toList then (if ts.isEmpty then some .pushDst else none)
    else if t = "DRAIN".toList then
      match ts with
      | [u] => (number u).map .drain
      | _ => none
    else if t = "CONFIG".toList then configArgs ts
    else none

/-- The lines of a text. -/
def textLines : List Char → List Char → List (List Char)
  | [], cur => [cur.reverse]
  | c :: cs, cur => if c = '\n' then cur.reverse :: textLines cs [] else textLines cs (c :: cur)

/-- The statements of a list of lines; a line with no token holds none. -/
def parseLines : List (List Char) → Option (List Stmt)
  | [] => some []
  | l :: ls =>
    match tokens l [] with
    | [] => parseLines ls
    | t :: ts => match statement (t :: ts), parseLines ls with
      | some q, some qs => some (q :: qs)
      | _, _ => none

/-- A script from its text (30_encoding.md R81); none where a line is no statement. -/
def parseScript (text : String) : Option (List Stmt) := parseLines (textLines text.toList [])

end Sys2Proof.Machine
end

