-- ==== Sys2Proof/Tests/Slice0.lean ====
section
/-! SUPPORT. Tests of the model, each of a word, a transition or a few steps on a small state, with the expected values taken from the
tables of spec/95_test_vectors.md and the rules, and a witness for the hypotheses of every statement that has some. -/

namespace Sys2Proof.Tests

open Sys2Proof.Machine

/-! ### Well-formedness: an ill-formed term for each check -/

theorem test_wf_config_zero_size : Config.wf { n := 0, minAvail := 3, retest := false } = false := by decide
theorem test_wf_config_zero_guard : Config.wf { n := 4, minAvail := 0, retest := false } = false := by decide
theorem test_wf_config_largest : Config.wf { n := 255, minAvail := 1, retest := true } = true := by decide
theorem test_wf_op3 : Instr.wf (.reservedOp3 0x02) = false := by decide
theorem test_wf_bit2_clear : Instr.wf (.reservedBit2 0x08) = false := by decide
theorem test_wf_bit2_op3 : Instr.wf (.reservedBit2 0x07) = false := by decide
theorem test_wf_bit3_earlier : Instr.wf (.reservedBit3 0x0C) = false := by decide
theorem test_wf_bit4_clear : Instr.wf (.reservedBit4 0x20) = false := by decide
theorem test_wf_bit5_earlier : Instr.wf (.reservedBit5 0x28) = false := by decide
theorem test_wf_bit6_clear : Instr.wf (.reservedBit6 0x80) = false := by decide
theorem test_wf_bit7_earlier : Instr.wf (.reservedBit7 0xC0) = false := by decide
theorem test_wf_s1Skip : Instr.wf (.s1Skip 0x06) = false := by decide
theorem test_wf_s2Fail : Instr.wf (.s2Fail 0x85) = false := by decide
theorem test_wf_lenOk : Instr.wf (.lenOk 0x00) = false := by decide
theorem test_wf_operands : Operands.wf 4 { record := [1, 2, 3], cap := 8, buffer := none } = false := by decide
theorem test_wf_stmt_config_size : Stmt.wf 4 (.config 0 none none []) = false := by decide
theorem test_wf_stmt_config_guard : Stmt.wf 4 (.config 4 (some 0) none []) = false := by decide
theorem test_wf_stmt_reserved : Stmt.wf 4 (.command 0x03 none) = false := by decide
theorem test_wf_stmt_encode_bare : Stmt.wf 4 (.command 0x01 none) = false := by decide
theorem test_wf_stmt_feed_operands :
    Stmt.wf 4 (.command 0x02 (some { record := [1, 2, 3, 4], cap := 8, buffer := none })) = false := by decide
theorem test_wf_stmt_encode :
    Stmt.wf 4 (.command 0x01 (some { record := [1, 2, 3, 4], cap := 8, buffer := none })) = true := by decide

/-! ### Decoding: a word of every row, written out from the opcode table's bits -/

/-- The context most keys are read in: `N = 4`, no re-test, a frame of which nothing is stored. -/
def ctx : KeyContext := { n := 4, retest := false, storeFits := true, checksumMatches := false }

theorem test_decode_reset : decodeCommand 0b00000000#8 = .reset := by decide
theorem test_decode_encode : decodeCommand 0b00000001#8 = .encode := by decide
theorem test_decode_feed : decodeCommand 0b00000010#8 = .feed := by decide
theorem test_decode_op3 : decodeCommand 0b11111111#8 = .reservedOp3 0xFF := by decide
theorem test_decode_bit2 : decodeCommand 0b00000100#8 = .reservedBit2 0x04 := by decide
theorem test_decode_bit3 : decodeCommand 0b00001000#8 = .reservedBit3 0x08 := by decide
theorem test_decode_bit4 : decodeCommand 0b00010001#8 = .reservedBit4 0x11 := by decide
theorem test_decode_bit5 : decodeCommand 0b00100010#8 = .reservedBit5 0x22 := by decide
theorem test_decode_bit6 : decodeCommand 0b01000000#8 = .reservedBit6 0x40 := by decide
theorem test_decode_bit7 : decodeCommand 0b10000010#8 = .reservedBit7 0x82 := by decide
theorem test_decode_s1Match : decodeKey ctx 0b0000000110#10 = .s1Match := by decide
theorem test_decode_s1Skip : decodeKey ctx 0b0010000101#10 = .s1Skip 0x85 := by decide
theorem test_decode_s2Match : decodeKey ctx 0b0110000101#10 = .s2Match := by decide
theorem test_decode_s2Retest : decodeKey { ctx with retest := true } 0b0100000110#10 = .s2Retest := by decide
theorem test_decode_s2Fail : decodeKey ctx 0b0100000110#10 = .s2Fail 0x06 := by decide
theorem test_decode_lenOk : decodeKey ctx 0b1000000100#10 = .lenOk 0x04 := by decide
theorem test_decode_lenBad : decodeKey ctx 0b1000000101#10 = .lenBad 0x05 := by decide
theorem test_decode_payStore : decodeKey ctx 0b1100000110#10 = .payStore 0x06 := by decide
theorem test_decode_payCsOk :
    decodeKey { ctx with storeFits := false, checksumMatches := true } 0b1100000000#10 = .payCsOk 0x00 := by decide
theorem test_decode_payCsBad : decodeKey { ctx with storeFits := false } 0b1100000100#10 = .payCsBad 0x04 := by decide
theorem test_decode_empty_program : decodeBytes [] = .error .noWord := rfl
theorem test_decode_program : decodeBytes [0x01, 0x02] = .ok (.encode, [0x02]) := rfl
theorem test_decode_wide_key : decodeTableWord 16 1024 = none := by decide

/-! ### Helpers -/

/-- The state a step or a meaning goes on to. -/
def nextOf (o : Out) : Option State :=
  match o with
  | .next t => some t
  | .fault _ => none
  | .refused _ => none

/-- The refusal a step or a meaning ends in. -/
def refusalOf (o : Out) : Option Refusal :=
  match o with
  | .next _ => none
  | .fault _ => none
  | .refused r => some r

/-- An instance of record size 4 that has issued nothing; `record_out` holds a mark. -/
def base : State := { State.reset with recordOut := [9, 9, 9, 9] }

/-- The base in AWAITING_PAYLOAD with these bytes stored. -/
def inPayload (stored : List Byte) : State :=
  { base with
    st := .payload
    expectedLength := 4
    fillCount := BitVec.ofNat 9 stored.length
    rxBuf := stored ++ List.replicate (5 - stored.length) 0 }

/-- The base with a script and bytes in the source. -/
def withScript (src : List Byte) (q : List Stmt) : State := { base with src := src, script := q }

/-- The frame of 95_test_vectors.md V-EX-1, as corrected there. -/
def goodFrame : List Byte := [0x06, 0x85, 0x04, 0x01, 0x02, 0x03, 0x04, 0x00]

/-! ### Transitions (95_test_vectors.md section 4) -/

/-- The view a transition leaves: state, `expected_length`, `fill_count`, results. -/
def after (b : Byte) (s : State) : Option (DecState × BitVec 8 × BitVec 9 × List Output) :=
  (nextOf (dstep b s)).map fun t => (t.st, t.expectedLength, t.fillCount, t.outputs)

theorem test_s1Match : after 0x06 base = some (.start2, 0, 0, []) := by decide            -- V-FSM-01
theorem test_s1Skip : after 0x85 base = some (.start1, 0, 0, []) := by decide             -- V-FSM-03
theorem test_s2Match : after 0x85 { base with st := .start2 } = some (.length, 0, 0, []) := by decide  -- V-FSM-04
theorem test_s2Fail : after 0x06 { base with st := .start2 } = some (.start1, 0, 0, []) := by decide   -- V-FSM-06
theorem test_s2Retest :                                                                    -- V-FSM-07
    after 0x06 { base with st := .start2, cfg := ⟨4, 3, true⟩ } = some (.start2, 0, 0, []) := by decide
theorem test_s2Fail_retest :                                                               -- V-FSM-08
    after 0x00 { base with st := .start2, cfg := ⟨4, 3, true⟩ } = some (.start1, 0, 0, []) := by decide
theorem test_lenOk : after 0x04 { base with st := .length } = some (.payload, 4, 0, []) := by decide   -- V-FSM-09
theorem test_lenBad : after 0x05 { base with st := .length } = some (.start1, 0, 0, [.sizeMismatch]) := by decide  -- V-FSM-10
theorem test_lenBad_zero : after 0x00 { base with st := .length } = some (.start1, 0, 0, [.sizeMismatch]) := by decide -- V-FSM-11
theorem test_payStore_marker : after 0x06 (inPayload []) = some (.payload, 4, 1, []) := by decide      -- V-FSM-13
theorem test_payStore_last : after 0x04 (inPayload [1, 2, 3]) = some (.payload, 4, 4, []) := by decide -- V-FSM-14
theorem test_payCsOk :                                                                     -- V-FSM-15
    after 0x00 (inPayload [1, 2, 3, 4]) = some (.start1, 0, 0, [.frameReady [1, 2, 3, 4]]) := by decide
theorem test_payCsOk_record :
    (nextOf (dstep 0x00 (inPayload [1, 2, 3, 4]))).map (·.recordOut) = some [1, 2, 3, 4] := by decide
theorem test_payCsBad :                                                                    -- V-FSM-16
    after 0x04 (inPayload [1, 2, 3, 4]) = some (.start1, 0, 0, [.checksumMismatch]) := by decide
theorem test_payCsBad_record :
    (nextOf (dstep 0x04 (inPayload [1, 2, 3, 4]))).map (·.recordOut) = some [9, 9, 9, 9] := by decide

/-! ### The checksum (section 2) -/

theorem test_checksum_mixed : checksum 4 [0xDE, 0xAD, 0xBE, 0xEF] = 0x26 := by decide     -- V-CS-07
theorem test_checksum_markers : checksum 6 [0x06, 0x85, 0x06, 0x85, 0x06, 0x85] = 0x85 := by decide  -- V-CS-09

/-! ### Commands (sections 3, 6 and 7) -/

/-- The base lending this record and capacity. -/
def lending (r : List Byte) (c : Nat) : State :=
  lendOperands { record := r, cap := c, buffer := some [0xEE, 0xEE, 0xEE, 0xEE, 0xEE, 0xEE, 0xEE, 0xEE, 0xEE, 0xEE] } base

theorem test_encode_exact_fit :                                                            -- V-ENC-01, P1
    (nextOf (exec .encode (lending [1, 2, 3, 4] 8))).map (fun t => (Memory.readBytes t.dst 0 10, t.outputs)) =
      some (goodFrame ++ [0xEE, 0xEE], [.encodeOk]) := by decide
theorem test_encode_too_small :                                                            -- V-ENC-02
    (nextOf (exec .encode (lending [1, 2, 3, 4] 7))).map (fun t => (Memory.readBytes t.dst 0 2, t.outputs)) =
      some ([0xEE, 0xEE], [.bufferTooSmall]) := by decide
theorem test_encode_wrong_length : refusalOf (exec .encode (lending [1, 2, 3] 8)) = some .recordLength := by decide  -- V-ENC-12
theorem test_reset_mid_frame :                                                             -- V-RST-02
    (nextOf (exec .reset { inPayload [1, 2] with src := [3] })).map
        (fun t => (t.st, t.fillCount, t.src, t.rxBuf.take 2, t.outputs)) =
      some (.start1, 0, [3], [1, 2], [.resetDone]) := by decide
theorem test_feed_guard :                                                                  -- V-FEED-02
    (nextOf (exec .feed { base with src := [0x06, 0x85] })).map (fun t => (t.st, t.src, t.outputs)) =
      some (.start1, [0x06, 0x85], [.needMoreData]) := by decide
theorem test_feed_first_byte :
    (nextOf (exec .feed { base with src := goodFrame })).map (fun t => (t.st, t.src.length, t.feeding, t.outputs)) =
      some (.start2, 7, true, []) := by decide
theorem test_reserved_word : refusalOf (step (withScript [] [.command 0x82 none])) = some .reservedCommand := by decide  -- V-CMD-06
theorem test_config_zero : refusalOf (step (withScript [] [.config 0 none none []])) = some .zeroRecordSize := by decide -- V-CMD-08
theorem test_config_guard :
    refusalOf (step (withScript [] [.config 4 (some 0) none []])) = some .badParameter := by decide  -- V-CMD-09
theorem test_config_largest :                                                              -- V-CMD-10
    (nextOf (step (withScript [] [.config 255 none none []]))).map (·.cfg.frameLen) = some 259 := by decide
theorem test_config_largest_buffer : (newCodec ⟨255, 3, false⟩ [] base).rxBuf.length = 256 := by
  rw [newCodec_rxBuf, length_freeBytes]; rfl

/-! ### A few whole FEEDs (sections 1 and 5) -/

/-- What is left after `k` steps: results, state, source. -/
def outcome (k : Nat) (s : State) : Option (List Output × DecState × List Byte) :=
  (nextOf (run k s)).map fun t => (t.outputs, t.st, t.src)

theorem test_scenario :                                                                    -- V-EX-2, corrected
    outcome 10 (withScript ([0x00] ++ goodFrame ++ [0x99]) [feedStmt, feedStmt]) =
      some ([.frameReady [1, 2, 3, 4], .needMoreData], .start1, [0x99]) := by decide
theorem test_frame_lost_after_stray_marker :                                               -- V-FSM-05
    outcome 12 (withScript ([0x06] ++ goodFrame) [.drain 3]) = some ([.needMoreData], .start1, [0x04, 0x00]) := by decide
theorem test_frame_found_with_retest :                                                     -- V-FSM-05r
    outcome 12 { withScript ([0x06] ++ goodFrame) [.drain 3] with cfg := ⟨4, 3, true⟩ } =
      some ([.frameReady [1, 2, 3, 4], .needMoreData], .start1, []) := by decide
theorem test_arrivals_between_micro_steps :
    outcome 8 { withScript [0x06, 0x85, 0x04] [feedStmt] with
      arrivals := { soon := [[], [0x01], [0x02], [0x03], [0x04], [0x00]], later := .cycle [] } } =
      some ([.frameReady [1, 2, 3, 4]], .start1, []) := by decide
theorem test_push_dst :                                                                    -- P5's loopback
    (nextOf (run 2 (withScript [] [.command 0x01 (some { record := [1, 2, 3, 4], cap := 8, buffer := none }), .pushDst]))).map
      (·.src) = some goodFrame := by decide

/-! ### The written script -/

theorem test_parse_statements :
    parseScript "CONFIG N=4 RETEST=1 ; an instance\nPUSH [0x0A 1b]\n\nENCODE [01 02 03 04], C=8\nPUSHDST\nDRAIN 3\nRESET\nFEED" =
      some [.config 4 none (some true) [], .push [0x0A, 0x1B],
        .command 0x01 (some { record := [1, 2, 3, 4], cap := 8, buffer := none }), .pushDst, .drain 3, .command 0x00 none,
        .command 0x02 none] := by decide
theorem test_parse_bad_byte : parseScript "PUSH [0G]" = none := by decide

/-! ### Placing a word -/

theorem test_place_command : fetch (State.reset.withFetchWord 8 0) =
    .run .reset { State.reset with script := [] } := by rfl
theorem test_place_store :
    (nextOf (step (State.reset.withFetchWord 16 0b1100000110))).map (fun t => (t.st, t.fillCount, t.rxBuf.take 1)) =
      some (.payload, 1, [0x06]) := by decide
theorem test_place_retest :
    (nextOf (step (State.reset.withFetchWord 16 0b0100000110))).map (·.st) = some .start2 := by decide

/-! ### Witnesses: for every statement with hypotheses, a state and operands that meet all of them -/

/-- A computed outcome that goes on with a property is an equation with that property. -/
theorem next_with (o : Out) (p : State → Bool) (h : (nextOf o).any p = true) : ∃ t, o = .next t ∧ p t = true := by
  cases o with
  | next t => exact ⟨t, rfl, by simpa [nextOf] using h⟩
  | fault f => simp [nextOf] at h
  | refused r => simp [nextOf] at h

theorem inv_base : base.Inv := ⟨by decide, by decide, by decide, by decide, by decide, by decide, by decide⟩

/-- A script and a source do not matter to the invariants. -/
theorem inv_withScript (src : List Byte) (q : List Stmt) : (withScript src q).Inv :=
  ⟨inv_base.legal, inv_base.header, inv_base.payload, inv_base.rxLength, inv_base.outLength, inv_base.buffer, inv_base.drain⟩

theorem inv_payload_first : (inPayload []).Inv :=
  ⟨by decide, by decide, by decide, by decide, by decide, by decide, by decide⟩

theorem inv_payload_last : (inPayload [1, 2, 3, 4]).Inv :=
  ⟨by decide, by decide, by decide, by decide, by decide, by decide, by decide⟩

/-- A FEED in progress over these bytes. -/
def running (src : List Byte) : State := { base with src := src, feeding := true }

theorem inv_running (src : List Byte) : (running src).Inv :=
  ⟨inv_base.legal, inv_base.header, inv_base.payload, inv_base.rxLength, inv_base.outLength, inv_base.buffer,
    fun _ => rfl⟩

theorem unbroken_running (src : List Byte) : (running src).HeaderUnbroken := by
  constructor <;> · intro _ _ h; cases h

theorem witness_DecodeOfEncodeIsTheInstruction :
    (∀ i ∈ [Instr.reset, .encode, .feed, .reservedOp3 0x03, .reservedBit2 0x04, .reservedBit3 0x08, .reservedBit4 0x10,
        .reservedBit5 0x20, .reservedBit6 0x40, .reservedBit7 0x80, .s1Match, .s1Skip 0xFF, .s2Match, .s2Fail 0x06, .lenOk 0x04,
        .lenBad 0x00, .payStore 0xFF],
      i.wf = true ∧ i.condition ctx = true) ∧
    (Instr.s2Retest.wf = true ∧ Instr.s2Retest.condition { ctx with retest := true } = true) ∧
    ((Instr.payCsOk 0).wf = true ∧
      (Instr.payCsOk 0).condition { ctx with storeFits := false, checksumMatches := true } = true) ∧
    ((Instr.payCsBad 0).wf = true ∧ (Instr.payCsBad 0).condition { ctx with storeFits := false } = true) := by decide

theorem witness_ReservedWordsAreRefused :
    (opField 0x03 = 0b11#2 ∨ zeroField 0x03 ≠ 0) ∧ (opField 0x04 = 0b11#2 ∨ zeroField 0x04 ≠ 0) ∧
    ¬ (opField 0x02 = 0b11#2 ∨ zeroField 0x02 ≠ 0) := by decide

theorem witness_StepRunsTheDecodedInstruction :
    ((withScript [] [feedStmt]).feeding = false ∧ (withScript [] [feedStmt]).script = .command 0x02 none :: []) ∧
    ((running goodFrame).feeding = true ∧ mayRead (deliver (running goodFrame)) = true ∧
      (deliver (running goodFrame)).src = 0x06 :: goodFrame.tail) ∧
    ((running [0x06, 0x85]).feeding = true ∧ mayRead (deliver (running [0x06, 0x85])) = false) := by decide

theorem witness_steps_without_config :
    (¬ (running goodFrame).atConfig ∧ ∃ t, step (running goodFrame) = .next t) ∧
    (¬ (withScript [] [.push [1]]).atConfig ∧ ∃ t, step (withScript [] [.push [1]]) = .next t) ∧
    (¬ (withScript [] []).atConfig ∧ ∃ t, step (withScript [] []) = .next t) := by
  refine ⟨⟨?_, _, rfl⟩, ⟨?_, _, rfl⟩, ⟨?_, _, rfl⟩⟩ <;> rintro ⟨h, n, k, r, src, rest, hs⟩ <;>
    simp_all [running, withScript]

theorem witness_ConfigCreatesAnInstance :
    (withScript [] [.config 255 none none []]).feeding = false ∧
    (withScript [] [.config 255 none none []]).script = .config 255 none none [] :: [] ∧ (255 : Byte) ≠ 0 := by decide

theorem witness_ChecksumDetectsOneChangedByte :
    (0 < [(0x01 : Byte)].length ∧ [(0x01 : Byte)][0]? ≠ some 0x00) ∧
    ((0 : Nat) ≠ 1 ∧ [(0x01 : Byte), 0x02][0]? = some 0x01 ∧ [(0x01 : Byte), 0x02][1]? = some 0x02) := by decide

theorem witness_FrameLayout : [(0x06 : Byte)].length = (1 : Byte).toNat := by decide

theorem witness_EncodeWritesTheFrame :
    (lending [1, 2, 3, 4] 8).recIn.length = (lending [1, 2, 3, 4] 8).cfg.size ∧
    Memory.wf (lending [1, 2, 3, 4] 8).dst = true ∧ ¬ (lending [1, 2, 3, 4] 8).cap < (lending [1, 2, 3, 4] 8).cfg.size + 4 := by
  decide

theorem witness_BufferTooSmallWritesNothing :
    (lending [1, 2, 3, 4] 7).recIn.length = (lending [1, 2, 3, 4] 7).cfg.size ∧
    Memory.wf (lending [1, 2, 3, 4] 7).dst = true ∧ (lending [1, 2, 3, 4] 7).cap < (lending [1, 2, 3, 4] 7).cfg.size + 4 := by
  decide

theorem witness_WrongRecordLengthIsRefused :
    (lending [1, 2, 3] 8).recIn.length ≠ (lending [1, 2, 3] 8).cfg.size := by decide

theorem witness_EncodeIsPure :
    let s := lending [1, 2, 3, 4] 8
    let s' := { s with st := .payload, src := [1], dst := [] }
    s.cfg.n = s'.cfg.n ∧ s.recIn = s'.recIn ∧ s.cap = s'.cap ∧ Memory.wf s.dst = true ∧ Memory.wf s'.dst = true ∧
      ∃ t, exec .encode s = .next t := by
  refine ⟨by decide, by decide, by decide, by decide, by decide, ?_⟩
  obtain ⟨t, h, -⟩ := next_with (exec .encode (lending [1, 2, 3, 4] 8)) (fun _ => true) (by decide)
  exact ⟨t, h⟩

theorem witness_EveryLargeEnoughCapacityIsAlike : base.cfg.size + 4 ≤ 8 ∧ base.cfg.size + 4 ≤ 65535 := by decide

theorem witness_states_of_the_decoder :
    base.st = .start1 ∧ ({ base with st := .start2 } : State).st = .start2 ∧
    (({ base with st := .length } : State).cfg.wf = true ∧ ({ base with st := .length } : State).st = .length ∧
      (0x05 : Byte) ≠ ({ base with st := .length } : State).cfg.n) := by decide

theorem witness_AwaitingPayload :
    ((inPayload []).Inv ∧ (inPayload []).st = .payload ∧ (inPayload []).fillCount.toNat < (inPayload []).cfg.size) ∧
    ((inPayload [1, 2, 3, 4]).Inv ∧ (inPayload [1, 2, 3, 4]).st = .payload ∧
      (inPayload [1, 2, 3, 4]).fillCount.toNat = (inPayload [1, 2, 3, 4]).cfg.size ∧
      checksum (inPayload [1, 2, 3, 4]).cfg.n ((inPayload [1, 2, 3, 4]).rxBuf.take (inPayload [1, 2, 3, 4]).cfg.size) = 0x00) :=
  ⟨⟨inv_payload_first, by decide, by decide⟩, inv_payload_last, by decide, by decide, by decide⟩

theorem witness_PayloadTransitionsComplete :
    (inPayload [1, 2, 3, 4]).fillCount.toNat < (inPayload [1, 2, 3, 4]).rxBuf.length ∧
    (inPayload [1, 2, 3, 4]).recordOut.length = (inPayload [1, 2, 3, 4]).cfg.size ∧
    (inPayload [1, 2, 3, 4]).cfg.size ≤ (inPayload [1, 2, 3, 4]).rxBuf.length := by decide

/-- Two machines that differ in `rx_buf[1]` to `rx_buf[4]` and in `record_out`, with a byte to store; and two at the end of a frame. -/
theorem witness_UnwrittenBytesAreNeverSeen :
    (let s := { inPayload [1] with src := [0x06], script := [feedStmt] }
     let s' := { s with rxBuf := [1, 7, 7, 7, 7], recordOut := [0, 0, 0, 0] }
     s.Inv ∧ s'.Inv ∧ s.sameWritten s' ∧ s.rxBuf ≠ s'.rxBuf ∧ ∃ t, step s = .next t ∧ decide (t.fillCount = 2) = true) ∧
    (let s := { inPayload [1, 2, 3, 4] with src := [0x00], script := [feedStmt] }
     let s' := { s with rxBuf := [1, 2, 3, 4, 7], recordOut := [0, 0, 0, 0] }
     s.Inv ∧ s'.Inv ∧ s.sameWritten s' ∧ s.rxBuf ≠ s'.rxBuf ∧
       ∃ t, step s = .next t ∧ decide (t.outputs = [.frameReady [1, 2, 3, 4]]) = true) ∧
    (let s := { inPayload [1] with script := [.command 0x03 none] }
     let s' := { s with rxBuf := [1, 7, 7, 7, 7] }
     s.Inv ∧ s'.Inv ∧ s.sameWritten s' ∧ s.rxBuf ≠ s'.rxBuf ∧ step s = .refused .reservedCommand) :=
  ⟨⟨⟨by decide, by decide, by decide, by decide, by decide, by decide, by decide⟩,
      ⟨by decide, by decide, by decide, by decide, by decide, by decide, by decide⟩, ⟨rfl, by decide⟩, by decide,
      next_with (step { inPayload [1] with src := [0x06], script := [feedStmt] }) (fun t => decide (t.fillCount = 2)) (by decide)⟩,
    ⟨⟨by decide, by decide, by decide, by decide, by decide, by decide, by decide⟩,
      ⟨by decide, by decide, by decide, by decide, by decide, by decide, by decide⟩, ⟨rfl, by decide⟩, by decide,
      next_with (step { inPayload [1, 2, 3, 4] with src := [0x00], script := [feedStmt] })
        (fun t => decide (t.outputs = [.frameReady [1, 2, 3, 4]])) (by decide)⟩,
    ⟨by decide, by decide, by decide, by decide, by decide, by decide, by decide⟩,
    ⟨by decide, by decide, by decide, by decide, by decide, by decide, by decide⟩, ⟨rfl, by decide⟩, by decide, rfl⟩

theorem witness_frame_enders :
    (∃ t, exec (.lenBad 0x05) { base with st := .length } = .next t) ∧
    (∃ t, exec (.payCsOk 0x00) (inPayload [1, 2, 3, 4]) = .next t) ∧
    (∃ t, exec (.payCsBad 0x04) (inPayload [1, 2, 3, 4]) = .next t) := by
  refine ⟨⟨_, rfl⟩, ?_, ?_⟩
  · obtain ⟨t, h, -⟩ := next_with (exec (.payCsOk 0x00) (inPayload [1, 2, 3, 4])) (fun _ => true) (by decide)
    exact ⟨t, h⟩
  · obtain ⟨t, h, -⟩ := next_with (exec (.payCsBad 0x04) (inPayload [1, 2, 3, 4])) (fun _ => true) (by decide)
    exact ⟨t, h⟩

theorem witness_TransitionFrame :
    ∃ t, exec (Transition.payStore.instr 0x06) (inPayload []) = .next t := by
  obtain ⟨t, h, -⟩ := next_with (exec (Transition.payStore.instr 0x06) (inPayload [])) (fun _ => true) (by decide)
  exact ⟨t, h⟩

theorem witness_FeedGuardInAwaitingStart1 :
    base.cfg.wf = true ∧ base.st = .start1 ∧ (withScript [1, 2] []).src.length < base.cfg.minAvail ∧
    ¬ (withScript [1, 2, 3] []).src.length < base.cfg.minAvail := by decide

theorem witness_FeedEmptySourceCheck :
    ({ base with st := .start2 } : State).st ≠ .start1 ∧ ({ base with st := .start2 } : State).src = [] ∧
    ({ base with st := .start2, src := [0x85] } : State).src = 0x85 :: [] := by decide

theorem witness_NeedMoreData :
    base.cfg.wf = true ∧ ∃ t, exec .feed base = .next t ∧ decide (t.outputs = base.outputs ++ [.needMoreData]) = true :=
  ⟨by decide, next_with (exec .feed base) (fun t => decide (t.outputs = base.outputs ++ [.needMoreData])) (by decide)⟩

theorem witness_CommandsReachOnlyTheirState :
    (∃ t, exec .encode (lending [1, 2, 3, 4] 8) = .next t ∧ true = true) ∧ (∃ t, exec .reset base = .next t) ∧
    (∃ t, exec .feed { inPayload [1, 2, 3, 4] with src := [0x00] } = .next t ∧
      decide (t.recordOut ≠ (inPayload [1, 2, 3, 4]).recordOut) = true) :=
  ⟨next_with (exec .encode (lending [1, 2, 3, 4] 8)) (fun _ => true) (by decide), ⟨_, rfl⟩,
    next_with (exec .feed { inPayload [1, 2, 3, 4] with src := [0x00] })
      (fun t => decide (t.recordOut ≠ (inPayload [1, 2, 3, 4]).recordOut)) (by decide)⟩

/-- An environment that never stops: two zeros before every other step, nothing before the rest. -/
def pulses : Environment := fun i => if i % 2 = 0 then [0x00, 0x00] else []

theorem bytes_pulses (k : Nat) :
    (Environment.bytes pulses k).length = k + k % 2 ∧
      (Environment.bytes pulses.later k).length + k % 2 = k := by
  induction k with
  | zero => exact ⟨rfl, rfl⟩
  | succ k ih =>
    have hl : pulses.later.later = pulses := funext fun i => by simp [Environment.later, pulses, Nat.add_assoc]
    have h0 : (pulses 0).length = 2 := rfl
    have h1 : (pulses.later 0).length = 0 := rfl
    simp only [environment_bytes_succ, List.length_append, hl, h0, h1]
    omega

/-- The four clauses: a FEED that has not returned, appends that end, and appends that keep it running for ever. -/
theorem witness_FeedTerminates :
    (let s := withScript goodFrame [feedStmt]
     s.Inv ∧ s.atFeed ∧ (∃ t, runIn (fun _ => []) 1 s = .next t ∧ t.feeding = true) ∧
       (∀ j u, 1 ≤ j → j ≤ 1 → runIn (fun _ => []) j s = .next u → u.feeding = true) ∧
       ∃ m, ∀ i, m ≤ i → (fun _ => [] : Environment) i = []) ∧
    (let s := running [0x00, 0x00]
     s.Inv ∧ s.atFeed ∧ s.st = .start1 ∧ (0x06 : Byte) ∉ s.src ∧ (∀ i, (0x06 : Byte) ∉ pulses i) ∧
       ∀ k, s.cfg.minAvail + k ≤ s.src.length + (Environment.bytes pulses (k + 1)).length) := by
  have h1 := next_with (runIn (fun _ => []) 1 (withScript goodFrame [feedStmt])) (fun t => t.feeding) (by decide)
  refine ⟨⟨inv_withScript _ _, .inr ⟨[], .inl ⟨none, rfl⟩⟩, h1, ?_, 0, fun _ _ => rfl⟩,
    inv_running _, .inl rfl, rfl, by decide, ?_, ?_⟩
  · intro j u hj hj' h
    obtain rfl : j = 1 := by omega
    obtain ⟨t, ht, hf⟩ := h1
    rw [ht] at h
    cases h
    exact hf
  · intro i
    by_cases h : i % 2 = 0 <;> simp [pulses, h]
  · intro k
    have h := (bytes_pulses (k + 1)).1
    have h3 : (running [0x00, 0x00]).cfg.minAvail = 3 := rfl
    have h4 : (running [0x00, 0x00]).src.length = 2 := rfl
    omega

theorem witness_DrainStopsAtNeedMoreData :
    (withScript goodFrame [.drain 3]).Inv ∧ (withScript goodFrame [.drain 3]).feeding = false ∧
    (withScript goodFrame [.drain 3]).script = [.drain 3] ∧ (withScript goodFrame [.drain 3]).outputs = [] ∧
    ∃ t, run 9 (withScript goodFrame [.drain 3]) = .next t ∧ decide (t.feeding = false ∧ t.script = []) = true :=
  ⟨inv_withScript _ _, rfl, rfl, rfl,
    next_with (run 9 (withScript goodFrame [.drain 3])) (fun t => decide (t.feeding = false ∧ t.script = [])) (by decide)⟩

theorem witness_EveryStepKeepsTheInvariants :
    (running goodFrame).Inv ∧ (running goodFrame).HeaderUnbroken ∧ ∃ t, step (running goodFrame) = .next t :=
  ⟨inv_running _, unbroken_running _, _, rfl⟩

theorem witness_RefusedOnlyAsListed :
    (withScript [] [.command 0x03 none]).Inv ∧ (withScript [] [.config 0 none none []]).Inv ∧
    (withScript [] [.config 4 (some 0) none []]).Inv ∧
    (withScript [] [.command 0x01 (some { record := [], cap := 8, buffer := none })]).Inv :=
  ⟨inv_withScript _ _, inv_withScript _ _, inv_withScript _ _, inv_withScript _ _⟩

theorem witness_RecordOutChangesOnlyOnFrameReady :
    let s := { inPayload [1, 2, 3, 4] with src := [0x00], feeding := true }
    s.Inv ∧ ¬ s.atConfig ∧ ∃ t, step s = .next t ∧ decide (t.recordOut ≠ s.recordOut) = true := by
  refine ⟨⟨by decide, by decide, by decide, by decide, by decide, by decide, by decide⟩, ?_,
    next_with (step { inPayload [1, 2, 3, 4] with src := [0x00], feeding := true })
      (fun t => decide (t.recordOut ≠ (inPayload [1, 2, 3, 4]).recordOut)) (by decide)⟩
  rintro ⟨h, -⟩
  cases h

theorem witness_ErrorsRecoverLocally :
    let size : State := { base with st := .length, src := [0x05], feeding := true }
    let sum : State := { inPayload [1, 2, 3, 4] with src := [0x04], script := [feedStmt] }
    (∃ t, step size = .next t ∧ decide (t.outputs = size.outputs ++ [.sizeMismatch]) = true) ∧
    (∃ t, step sum = .next t ∧ decide (t.outputs = sum.outputs ++ [.checksumMismatch]) = true) ∧
    ∃ t, exec .encode (lending [1, 2, 3, 4] 7) = .next t ∧
      decide (t.outputs = (lending [1, 2, 3, 4] 7).outputs ++ [.bufferTooSmall]) = true :=
  ⟨next_with (step { base with st := .length, src := [0x05], feeding := true })
      (fun t => decide (t.outputs = [.sizeMismatch])) (by decide),
    next_with (step { inPayload [1, 2, 3, 4] with src := [0x04], script := [feedStmt] })
      (fun t => decide (t.outputs = [.checksumMismatch])) (by decide),
    next_with (exec .encode (lending [1, 2, 3, 4] 7)) (fun t => decide (t.outputs = [.bufferTooSmall])) (by decide)⟩

/-- A FEED in progress and one just issued. -/
theorem witness_WhereFeedCanStop :
    ((running []).Inv ∧ (running []).HeaderUnbroken ∧ (running []).cfg.retest = false ∧ 3 ≤ (running []).cfg.minAvail ∧
      ∃ t, step (running []) = .next t ∧ decide (t.outputs = (running []).outputs ++ [.needMoreData]) = true) ∧
    (let s := { inPayload [1] with script := [feedStmt] }
     s.Inv ∧ s.HeaderUnbroken ∧ s.cfg.retest = false ∧ 3 ≤ s.cfg.minAvail ∧
       ∃ t, step s = .next t ∧ decide (t.outputs = s.outputs ++ [.needMoreData]) = true) :=
  ⟨⟨inv_running _, unbroken_running _, rfl, by decide,
      next_with (step (running [])) (fun t => decide (t.outputs = (running []).outputs ++ [.needMoreData])) (by decide)⟩,
    ⟨by decide, by decide, by decide, by decide, by decide, by decide, by decide⟩,
    ⟨fun _ _ h => absurd h (by decide), fun _ _ h => absurd h (by decide)⟩,
    rfl, by decide,
    next_with (step { inPayload [1] with script := [feedStmt] }) (fun t => decide (t.outputs = [.needMoreData])) (by decide)⟩

/-- An instance that goes on beside one whose run a refusal has ended. -/
theorem witness_InstancesShareNothing :
    let sys : System := [.next base, .refused .reservedCommand]
    (0 : Nat) ≠ 1 ∧ sys[0]? = some (.next base) ∧ (∀ s, sys[1]? ≠ some (.next s)) ∧ ∀ s, sys[2]? ≠ some (.next s) := by
  refine ⟨by decide, rfl, fun s h => ?_, fun s h => ?_⟩
  · cases h
  · cases h

/-- A refusal of one instance leaves the other running. -/
theorem test_refusal_of_one_instance :
    ((runSystem [1, 0, 1] [.next (withScript [] [.push [7]]), .next (withScript [] [.command 0x03 none])]).map
      fun o => ((nextOf o).map (·.src), refusalOf o)) = [(some [7], none), (none, some .reservedCommand)] := by decide

theorem witness_RoundTrip :
    let s := lending [1, 2, 3, 4] 8
    s.Inv ∧ s.feeding = false ∧ s.st = .start1 ∧ s.src = [] ∧ s.quiet ∧ s.cfg.minAvail ≤ s.cfg.size + 4 ∧
      s.recIn = [1, 2, 3, 4] ∧ s.recIn.length = s.cfg.size ∧ s.cfg.size + 4 ≤ s.cap ∧
      ∃ e, exec .encode s = .next e ∧
        decide ([[0x06], [], [0x85, 0x04, 0x01, 0x02], [0x03, 0x04, 0x00]].flatten = Memory.readBytes e.dst 0 (s.cfg.size + 4)) =
          true :=
  ⟨⟨by decide, by decide, by decide, by decide, by decide, by decide, by decide⟩, rfl, rfl, rfl, quiet_of_nothing rfl, by decide, rfl,
    by decide, by decide,
    next_with (exec .encode (lending [1, 2, 3, 4] 8))
      (fun e => decide ([[0x06], [], [0x85, 0x04, 0x01, 0x02], [0x03, 0x04, 0x00]].flatten = Memory.readBytes e.dst 0 8))
      (by decide)⟩

theorem onlyFeeds_one : onlyFeeds [feedStmt] := by
  intro x hx
  obtain rfl := List.mem_singleton.mp hx
  rfl

theorem witness_FeedIsDstepOverTheConsumedBytes :
    (withScript goodFrame [feedStmt]).Inv ∧ onlyFeeds (withScript goodFrame [feedStmt]).script ∧
    ∃ t, run 8 (withScript goodFrame [feedStmt]) = .next t ∧ decide (t.src = []) = true :=
  ⟨inv_withScript _ _, onlyFeeds_one,
    next_with (run 8 (withScript goodFrame [feedStmt])) (fun t => decide (t.src = [])) (by decide)⟩

/-- The same stream, arriving in two pieces. -/
def splitStream : State :=
  { withScript [0x06, 0x85, 0x04] [feedStmt] with
    arrivals := { soon := [[], [0x01], [0x02], [0x03], [0x04], [0x00]], later := .cycle [] } }

theorem witness_FragmentationInvariance :
    let a := withScript goodFrame [feedStmt]
    let b := splitStream
    a.Inv ∧ b.Inv ∧ a.decoder = b.decoder ∧ news a.outputs = news b.outputs ∧ onlyFeeds a.script ∧ onlyFeeds b.script ∧
      a.src ++ a.arrivals.bytes 8 = b.src ++ b.arrivals.bytes 8 ∧
      (∃ t, run 8 a = .next t ∧ decide (t.st = .start1 ∧ t.src.length < t.cfg.minAvail) = true) ∧
      ∃ t, run 8 b = .next t ∧ decide (t.st = .start1 ∧ t.src.length < t.cfg.minAvail) = true :=
  ⟨inv_withScript _ _, ⟨by decide, by decide, by decide, by decide, by decide, by decide, by decide⟩, rfl, rfl,
    onlyFeeds_one, onlyFeeds_one, by decide,
    next_with (run 8 (withScript goodFrame [feedStmt])) (fun t => decide (t.st = .start1 ∧ t.src.length < t.cfg.minAvail))
      (by decide),
    next_with (run 8 splitStream) (fun t => decide (t.st = .start1 ∧ t.src.length < t.cfg.minAvail)) (by decide)⟩

theorem witness_BackToBackFrames :
    let s := withScript (goodFrame ++ goodFrame) (List.replicate 3 feedStmt)
    s.Inv ∧ s.feeding = false ∧ s.st = .start1 ∧ s.quiet ∧ s.cfg.minAvail ≤ s.cfg.size + 4 ∧
      (∀ r ∈ [[(1 : Byte), 2, 3, 4], [1, 2, 3, 4]], r.length = s.cfg.size) ∧
      s.src = [[(1 : Byte), 2, 3, 4], [1, 2, 3, 4]].flatMap (frame s.cfg.n) ∧
      s.script = List.replicate ([[(1 : Byte), 2, 3, 4], [1, 2, 3, 4]].length + 1) feedStmt :=
  ⟨inv_withScript _ _, rfl, rfl, quiet_of_nothing rfl, by decide, by decide, by decide, rfl⟩

theorem witness_JunkIsSkipped :
    let s := withScript [0x01, 0x06, 0x85, 0x09] [feedStmt]
    s.Inv ∧ s.feeding = false ∧ s.st = .start1 ∧ s.cfg.retest = false ∧ 3 ≤ s.cfg.minAvail ∧ onlyFeeds s.script ∧
      junkFor s.cfg.n (s.src ++ s.arrivals.bytes 4) ∧
      ∃ t, run 4 s = .next t ∧ decide (.sizeMismatch ∈ t.outputs ∧ t.feeding = false) = true := by
  refine ⟨inv_withScript _ _, rfl, rfl, rfl, by decide, onlyFeeds_one, ?_,
    next_with (run 4 (withScript [0x01, 0x06, 0x85, 0x09] [feedStmt]))
      (fun t => decide (.sizeMismatch ∈ t.outputs ∧ t.feeding = false)) (by decide)⟩
  intro u v h
  have h' : ([0x01, 0x06, 0x85, 0x09] : List Byte) = u ++ [0x06, 0x85, 0x04] ++ v := h
  have hl : u.length ≤ 1 := by
    have := congrArg List.length h'
    simp at this
    omega
  match u, hl with
  | [], _ => simp at h'
  | [_], _ => simp at h'

theorem witness_OneChangedByteIsRejected :
    let s := withScript [0x06, 0x85, 0x04, 0x01, 0x02, 0x03, 0x04, 0x80, 0x77] [feedStmt]
    s.Inv ∧ s.feeding = false ∧ s.st = .start1 ∧ s.quiet ∧ [(1 : Byte), 2, 3, 4].length = s.cfg.size ∧ 4 < s.cfg.size + 1 ∧
      ([(1 : Byte), 2, 3, 4] ++ [checksum s.cfg.n [1, 2, 3, 4]])[4]? ≠ some 0x80 ∧
      s.src = [0x06, 0x85, s.cfg.n] ++ ([(1 : Byte), 2, 3, 4] ++ [checksum s.cfg.n [1, 2, 3, 4]]).set 4 0x80 ++ [0x77] ∧
      s.cfg.minAvail ≤ s.src.length ∧ s.script = feedStmt :: [] :=
  ⟨inv_withScript _ _, rfl, rfl, quiet_of_nothing rfl, by decide, by decide, by decide, by decide, by decide, rfl⟩

theorem witness_WrongLengthIsRejected :
    (let s := withScript [0x06, 0x85, 0x05] [feedStmt]
     s.Inv ∧ s.feeding = false ∧ s.st = .start1 ∧ s.quiet ∧ (0x05 : Byte) ≠ s.cfg.n ∧ s.src = [0x06, 0x85, 0x05] ++ [] ∧
       s.cfg.minAvail ≤ s.src.length ∧ s.script = feedStmt :: []) ∧
    (let s := { withScript [0x85, 0x00] [feedStmt] with st := .start2 }
     s.Inv ∧ s.feeding = false ∧ s.st = .start2 ∧ s.quiet ∧ (0x00 : Byte) ≠ s.cfg.n ∧ s.src = [0x85, 0x00] ++ [] ∧
       s.script = feedStmt :: []) ∧
    (let s := withScript ([0x06, 0x85, 0x05] ++ goodFrame) [feedStmt, feedStmt]
     s.Inv ∧ s.feeding = false ∧ s.st = .start1 ∧ s.quiet ∧ (0x05 : Byte) ≠ s.cfg.n ∧ [(1 : Byte), 2, 3, 4].length = s.cfg.size ∧
       s.src = [0x06, 0x85, 0x05] ++ frame s.cfg.n [1, 2, 3, 4] ∧ s.cfg.minAvail ≤ s.cfg.size + 4 ∧
       s.script = [feedStmt, feedStmt]) :=
  ⟨⟨inv_withScript _ _, rfl, rfl, quiet_of_nothing rfl, by decide, rfl, by decide, rfl⟩,
    ⟨⟨by decide, by decide, by decide, by decide, by decide, by decide, by decide⟩, rfl, rfl, quiet_of_nothing rfl, by decide, rfl, rfl⟩,
    ⟨inv_withScript _ _, rfl, rfl, quiet_of_nothing rfl, by decide, by decide, by decide, by decide, rfl⟩⟩

/-- The first clause of WrongLengthIsRejected, in both states it speaks of. -/
theorem witness_WrongLength_header :
    (base.Inv ∧ (0x00 : Byte) ≠ base.cfg.n ∧ base.st = .start1) ∧
    (let s := { withScript [0x85, 0x00] [feedStmt] with st := .start2 }
     s.Inv ∧ (0xFF : Byte) ≠ s.cfg.n ∧ s.st = .start2) :=
  ⟨⟨inv_base, by decide, rfl⟩,
    ⟨by decide, by decide, by decide, by decide, by decide, by decide, by decide⟩, by decide, rfl⟩

theorem witness_StatementsWithoutAWord :
    (withScript [] [.push [1]]).feeding = false ∧ (withScript [] [.push [1]]).script = .push [1] :: [] ∧
    (withScript [] [.pushDst]).script = .pushDst :: [] ∧ (withScript [] [.drain 1]).script = .drain (0 + 1) :: [] ∧
    (withScript [] [.drain 0]).script = .drain 0 :: [] ∧ (withScript [] []).script = [] := by decide

/-- Appends that go on for ever: the alternation of a cycle. -/
theorem test_cycle_goes_on :
    outcome 5 { running [0x00, 0x00, 0x00] with arrivals := { soon := [], later := .cycle [[0x00, 0x00], []] } } =
      some ([], .start1, [0x00, 0x00, 0x00, 0x00]) := by decide

end Sys2Proof.Tests
end

/-! PROOFS. The statements about the state (10_state.md): what the transitions and a step do in states that meet the invariants, that the
invariants hold at reset and are kept, what each command and step reaches, and that unwritten bytes are never seen. -/

namespace Sys2Proof.Machine

/-! ### The payload transitions, where the arrays hold the bytes they reach -/

theorem exec_payStore_inside (b : Byte) (s : State) (h : s.fillCount.toNat < s.rxBuf.length) :
    exec (.payStore b) s =
      .next { s with rxBuf := s.rxBuf.set s.fillCount.toNat b, fillCount := s.fillCount + 1 } := by
  simp [exec, execPayStore, storeByte_inside b s h]

theorem exec_payCsBad_inside (b : Byte) (s : State) (h : s.fillCount.toNat < s.rxBuf.length) :
    exec (.payCsBad b) s = .next (endFeed .checksumMismatch
      (returnToStart1 { s with rxBuf := s.rxBuf.set s.fillCount.toNat b })) := by
  simp only [exec, execPayCsBad, storeByte_inside b s h]
  rfl

theorem exec_payCsOk_inside (b : Byte) (s : State) (h : s.fillCount.toNat < s.rxBuf.length)
    (ho : s.recordOut.length = s.cfg.size) (hr : s.cfg.size ≤ s.rxBuf.length) :
    exec (.payCsOk b) s = .next (endFeed (.frameReady ((s.rxBuf.set s.fillCount.toNat b).take s.cfg.size))
      (returnToStart1 { s with
        rxBuf := s.rxBuf.set s.fillCount.toNat b, recordOut := (s.rxBuf.set s.fillCount.toNat b).take s.cfg.size })) := by
  have hc := copyRecord_full
    { s with rxBuf := s.rxBuf.set s.fillCount.toNat b, fillCount := s.fillCount + 1 } (by simpa using hr) ho
  simp only [exec, execPayCsOk, storeByte_inside b s h, hc, conclude_complete, returnToStart1_recordOut, returnToStart1_cfg,
    List.take_take, Nat.min_self]
  rfl

/-- Settles O30, by the store inside `rx_buf` and the copy of a whole record. -/
theorem payloadTransitionsComplete : Obligations.PayloadTransitionsComplete := fun s b h =>
  ⟨exec_payStore_inside b s h, exec_payCsBad_inside b s h, exec_payCsOk_inside b s h⟩

/-! ### `DSTEP`, by the decoder's state -/

/-- `DSTEP` runs the instruction of the transition the byte takes. -/
theorem dstep_of_transition {b : Byte} {s : State} {tr : Transition} (h : transitionOf b s = tr) :
    dstep b s = exec (tr.instr b) s := by
  rw [dstep, h, exec_instr]

theorem dstep_start1 (b : Byte) (s : State) (h : s.st = .start1) :
    dstep b s = .next { s with st := if b = mark0 then .start2 else .start1 } := by
  rw [dstep, transitionOf_eq, h]
  dsimp only
  split_ifs <;> rfl

theorem dstep_start2 (b : Byte) (s : State) (h : s.st = .start2) :
    dstep b s = .next { s with
      st := if b = mark1 then .length else if b = mark0 ∧ s.cfg.retest = true then .start2 else .start1 } := by
  rw [dstep, transitionOf_eq, h]
  dsimp only
  split_ifs <;> rfl

theorem dstep_length_ok (s : State) (h : s.st = .length) :
    dstep s.cfg.n s = .next { s with expectedLength := s.cfg.n, fillCount := 0, st := .payload } :=
  dstep_of_transition (tr := .lenOk) (by simp [transitionOf_eq, h])

theorem dstep_length_bad (b : Byte) (s : State) (h : s.st = .length) (hb : b ≠ s.cfg.n) :
    dstep b s = .next (endFeed .sizeMismatch (returnToStart1 s)) :=
  dstep_of_transition (tr := .lenBad) (by simp [transitionOf_eq, h, hb])

/-- R126: while fewer than `N` bytes are stored the byte is stored, whatever it is. -/
theorem dstep_payload_store (b : Byte) (s : State) (hi : s.Inv) (hp : s.st = .payload) (hf : s.fillCount.toNat < s.cfg.size) :
    dstep b s = .next { s with rxBuf := s.rxBuf.set s.fillCount.toNat b, fillCount := s.fillCount + 1 } := by
  have ht : transitionOf b s = .payStore := by simp [transitionOf_eq, hp, (storeFits_iff s hi hp).mpr hf]
  rw [dstep_of_transition ht]
  exact exec_payStore_inside b s (fillCount_inside s hi hp)

/-- The store of the checksum byte is behind the record. -/
theorem take_set_at_end (l : List Byte) (n : Nat) (b : Byte) : (l.set n b).take n = l.take n := by
  rw [List.take_set, List.set_eq_of_length_le (by simp)]

/-- R127: with `N` bytes stored, their checksum completes the frame. -/
theorem dstep_payload_complete (b : Byte) (s : State) (hi : s.Inv) (hp : s.st = .payload) (hf : s.fillCount.toNat = s.cfg.size)
    (hc : checksum s.cfg.n (s.rxBuf.take s.cfg.size) = b) :
    dstep b s = .next (endFeed (.frameReady (s.rxBuf.take s.cfg.size)) (returnToStart1
      { s with rxBuf := s.rxBuf.set s.cfg.size b, recordOut := s.rxBuf.take s.cfg.size })) := by
  have hfit : ¬ storeFits s = true := by rw [storeFits_iff s hi hp]; omega
  have ht : transitionOf b s = .payCsOk := by simp [transitionOf_eq, hp, hfit, (checksumMatches_iff b s hi hp hf).mpr hc]
  have he := exec_payCsOk_inside b s (fillCount_inside s hi hp) hi.outLength (by rw [hi.rxLength]; omega)
  rw [hf, take_set_at_end] at he
  exact (dstep_of_transition ht).trans he

/-- R128: with `N` bytes stored, any other byte rejects the frame. -/
theorem dstep_payload_reject (b : Byte) (s : State) (hi : s.Inv) (hp : s.st = .payload) (hf : s.fillCount.toNat = s.cfg.size)
    (hc : checksum s.cfg.n (s.rxBuf.take s.cfg.size) ≠ b) :
    dstep b s = .next (endFeed .checksumMismatch (returnToStart1 { s with rxBuf := s.rxBuf.set s.cfg.size b })) := by
  have hfit : ¬ storeFits s = true := by rw [storeFits_iff s hi hp]; omega
  have hm : ¬ checksumMatches b s = true := by rwa [checksumMatches_iff b s hi hp hf]
  have ht : transitionOf b s = .payCsBad := by simp [transitionOf_eq, hp, hfit, hm]
  have he := exec_payCsBad_inside b s (fillCount_inside s hi hp)
  rw [hf] at he
  exact (dstep_of_transition ht).trans he

/-! ### The decoder's view of the updated states -/

@[simp] theorem endFeed_decoder (o : Output) (s : State) : (endFeed o s).decoder = s.decoder := by
  simp [State.decoder]

@[simp] theorem lendAny_decoder (o : Option Operands) (s : State) : (lendAny o s).decoder = s.decoder := by
  cases o <;> rfl

@[simp] theorem lendAny_feeding (o : Option Operands) (s : State) : (lendAny o s).feeding = s.feeding := by
  cases o <;> rfl

@[simp] theorem lendAny_drainLeft (o : Option Operands) (s : State) : (lendAny o s).drainLeft = s.drainLeft := by
  cases o <;> rfl

@[simp] theorem lendAny_outputs (o : Option Operands) (s : State) : (lendAny o s).outputs = s.outputs := by
  cases o <;> rfl

/-- The buffer the caller lends is in its canonical form. -/
theorem wf_dst_lendAny (o : Option Operands) (s : State) (h : Memory.wf s.dst = true) : Memory.wf (lendAny o s).dst = true := by
  match o with
  | none => exact h
  | some ⟨_, _, none⟩ => exact h
  | some ⟨_, _, some bs⟩ => exact Memory.wf_writeBytes bs [] 0 rfl

/-! ### The invariants -/

/-- Apart from the buffer and the DRAIN the invariants speak of the decoder's view alone. -/
theorem State.Inv.of_decoder {s t : State} (hi : s.Inv) (hd : t.decoder = s.decoder) (hb : Memory.wf t.dst = true)
    (hdr : t.drainLeft ≠ none → t.feeding = true) : t.Inv := by
  simp only [State.decoder, DecoderView.mk.injEq] at hd
  obtain ⟨hst, hel, hfc, hrx, hout, hcfg⟩ := hd
  refine ⟨?_, ?_, ?_, ?_, ?_, hb, hdr⟩
  · rw [hcfg]; exact hi.legal
  · rw [hst, hel, hfc]; exact hi.header
  · rw [hst, hel, hfc, hcfg]; exact hi.payload
  · rw [hrx, hcfg]; exact hi.rxLength
  · rw [hout, hcfg]; exact hi.outLength

/-- The invariants outside AWAITING_PAYLOAD, where the arrays keep their lengths. -/
theorem State.Inv.of_header {s t : State} (hi : s.Inv) (hst : t.st ≠ .payload) (hel : t.expectedLength = 0) (hfc : t.fillCount = 0)
    (hrx : t.rxBuf.length = s.rxBuf.length) (hout : t.recordOut.length = s.recordOut.length) (hcfg : t.cfg = s.cfg)
    (hb : t.dst = s.dst) (hdr : t.drainLeft ≠ none → t.feeding = true) : t.Inv := by
  refine ⟨?_, fun _ => ⟨hel, hfc⟩, fun hp => absurd hp hst, ?_, ?_, ?_, hdr⟩
  · rw [hcfg]; exact hi.legal
  · rw [hrx, hcfg]; exact hi.rxLength
  · rw [hout, hcfg]; exact hi.outLength
  · rw [hb]; exact hi.buffer

/-- What a transition that ends a frame leaves. -/
theorem State.Inv.of_ended {s u : State} (o : Output) (hi : s.Inv) (hrx : u.rxBuf.length = s.rxBuf.length)
    (hout : u.recordOut.length = s.recordOut.length) (hcfg : u.cfg = s.cfg) (hb : u.dst = s.dst) :
    (endFeed o (returnToStart1 u)).Inv :=
  hi.of_header (by simp) (by simp) (by simp) (by simpa using hrx) (by simpa using hout) (by simpa using hcfg) (by simpa using hb)
    (by simp)

/-- A legal CONFIG makes a codec that meets the invariants. -/
theorem newCodec_inv (c : Config) (src : List Byte) (s : State) (hc : c.wf = true) (hb : Memory.wf s.dst = true) :
    (newCodec c src s).Inv :=
  ⟨hc, fun _ => ⟨rfl, rfl⟩, fun hp => by simp at hp, by simp, by simp, hb, fun h => absurd rfl h⟩

/-- R131: a transition leads from the invariants to the invariants. -/
theorem dstep_keeps_inv {b : Byte} {s t : State} (hi : s.Inv) (h : dstep b s = .next t) : t.Inv := by
  cases hst : s.st with
  | start1 =>
    rw [dstep_start1 b s hst] at h
    cases h
    obtain ⟨hel, hfc⟩ := hi.header (by simp [hst])
    exact hi.of_header (by dsimp only; split_ifs <;> simp) hel hfc rfl rfl rfl rfl hi.drain
  | start2 =>
    rw [dstep_start2 b s hst] at h
    cases h
    obtain ⟨hel, hfc⟩ := hi.header (by simp [hst])
    exact hi.of_header (by dsimp only; split_ifs <;> simp) hel hfc rfl rfl rfl rfl hi.drain
  | length =>
    by_cases hb : b = s.cfg.n
    · rw [hb, dstep_length_ok s hst] at h
      cases h
      exact ⟨hi.legal, fun hp => absurd rfl hp, fun _ => ⟨rfl, Nat.zero_le _⟩, hi.rxLength, hi.outLength, hi.buffer, hi.drain⟩
    · rw [dstep_length_bad b s hst hb] at h
      cases h
      exact hi.of_ended _ rfl rfl rfl rfl
  | payload =>
    obtain ⟨hel, hle⟩ := hi.payload hst
    by_cases hf : s.fillCount.toNat < s.cfg.size
    · rw [dstep_payload_store b s hi hst hf] at h
      cases h
      refine ⟨hi.legal, fun hp => absurd hst hp, fun _ => ⟨hel, ?_⟩, ?_, hi.outLength, hi.buffer, hi.drain⟩
      · rw [fillCount_succ s hi hst]; exact hf
      · simpa using hi.rxLength
    · have hfull : s.fillCount.toNat = s.cfg.size := by omega
      by_cases hc : checksum s.cfg.n (s.rxBuf.take s.cfg.size) = b
      · rw [dstep_payload_complete b s hi hst hfull hc] at h
        cases h
        exact hi.of_ended _ (by simp) (by simp [hi.rxLength, hi.outLength]) rfl rfl
      · rw [dstep_payload_reject b s hi hst hfull hc] at h
        cases h
        exact hi.of_ended _ (by simp) rfl rfl rfl

/-! ### What the commands reach (10_state.md R29) -/

theorem exec_encode_refused (s : State) (h : s.recIn.length ≠ s.cfg.size) : exec .encode s = .refused .recordLength := by
  simp [exec, execEncode, h]

theorem exec_encode_tooSmall (s : State) (h : s.recIn.length = s.cfg.size) (hc : s.cap < s.cfg.frameLen) :
    exec .encode s = .next (respond .bufferTooSmall s) := by
  simp [exec, execEncode, bufferTooSmall, h, hc]

theorem exec_encode_fits (s : State) (h : s.recIn.length = s.cfg.size) (hc : s.cfg.frameLen ≤ s.cap) :
    exec .encode s = .next (respond .encodeOk { s with dst := Memory.writeBytes s.dst 0 (frame s.cfg.n s.recIn) }) := by
  simp [exec, execEncode, bufferTooSmall, h, hc]

/-- ENCODE writes `dst` and gives its result. -/
theorem execEncode_frame {s t : State} (h : exec .encode s = .next t) :
    ∃ m o, t = respond o { s with dst := m } ∧ (Memory.wf s.dst = true → Memory.wf m = true) := by
  obtain ⟨-, he⟩ | ⟨-, -, he⟩ | ⟨-, -, he⟩ := execEncode_cases s <;> rw [he] at h <;> cases h
  · exact ⟨s.dst, .bufferTooSmall, rfl, id⟩
  · exact ⟨_, .encodeOk, rfl, Memory.wf_writeBytes _ _ 0⟩

/-- FEED leaves the encoder's operands and the configuration, and writes `record_out` only with a FrameReady. -/
theorem execFeed_frame {s t : State} (h : exec .feed s = .next t) :
    t.recIn = s.recIn ∧ t.dst = s.dst ∧ t.cap = s.cap ∧ t.cfg = s.cfg ∧ t.arrivals = s.arrivals ∧
      (t.recordOut ≠ s.recordOut → t.outputs = s.outputs ++ [.frameReady (t.recordOut.take t.cfg.size)]) := by
  obtain ⟨-, hf⟩ | ⟨b, rest, -, -, hf⟩ := execFeed_cases s <;> rw [hf] at h
  · cases h
    simp
  · obtain ⟨st, el, fc, rfl⟩ | ⟨-, rfl⟩ | ⟨-, -, rfl⟩ | ⟨-, -, rfl⟩ | ⟨-, -, r, rfl⟩ := runTransition_next _ b _ t h
    · simp
    · simp
    · simp
    · simp
    · simp

/-- Settles O42, by the reach of each of the three commands. -/
theorem commandsReachOnlyTheirState : Obligations.CommandsReachOnlyTheirState := by
  refine ⟨fun s t h => ?_, fun s t h => ?_, fun s t h => ?_⟩
  · obtain ⟨m, o, rfl, -⟩ := execEncode_frame h
    exact ⟨rfl, rfl, rfl, rfl, rfl, rfl, rfl⟩
  · obtain ⟨hrec, hdst, hcap, hcfg, harr, hout⟩ := execFeed_frame h
    exact ⟨hrec, hdst, hcap, hcfg, harr, fun hne => ⟨_, hout hne, rfl⟩⟩
  · cases h
    exact ⟨rfl, rfl, rfl, rfl, rfl, rfl, rfl, rfl, rfl, rfl⟩

/-! ### What a step can do -/

/-- A CONFIG is refused, or it makes a codec of a legal configuration. -/
theorem runConfig_cases (n : Byte) (k : Option Nat) (r : Option Bool) (src : List Byte) (s : State) :
    (∃ e, runConfig n k r src s = .refused e) ∨
      ∃ c : Config, c.wf = true ∧ runConfig n k r src s = .next (newCodec c src s) := by
  unfold runConfig
  dsimp only
  split_ifs with hn hk
  · exact .inl ⟨_, rfl⟩
  · exact .inl ⟨_, rfl⟩
  · exact .inr ⟨_, by simpa [Config.wf, Nat.one_le_iff_ne_zero] using ⟨hn, hk⟩, rfl⟩

/-- `u` is `s` as a step hands it to what it runs: appends are delivered or made, operands are lent, the script goes on, a DRAIN is
noted; the decoder and the results are those of `s`. -/
structure State.Prepared (s u : State) : Prop where
  decoder : u.decoder = s.decoder
  outputs : u.outputs = s.outputs
  feeding : u.feeding = s.feeding
  buffer : Memory.wf s.dst = true → Memory.wf u.dst = true

theorem State.Prepared.cfg {s u : State} (hp : s.Prepared u) : u.cfg = s.cfg := congrArg DecoderView.cfg hp.decoder

theorem State.Prepared.recordOut {s u : State} (hp : s.Prepared u) : u.recordOut = s.recordOut :=
  congrArg DecoderView.recordOut hp.decoder

theorem prepared_lendAny (o : Option Operands) (rest : List Stmt) (s : State) :
    s.Prepared (lendAny o { deliver s with script := rest }) :=
  ⟨lendAny_decoder o _, lendAny_outputs o _, lendAny_feeding o _, fun hb => wf_dst_lendAny o _ hb⟩

/-- Everything a step that goes on can be: a micro-step of FEED; a statement that ends here, RESET or ENCODE; or a new codec. -/
theorem step_next_cases {s t : State} (h : step s = .next t) :
    (∃ u, s.Prepared u ∧ exec .feed u = .next t) ∨
    (∃ u, s.Prepared u ∧ u.drainLeft = s.drainLeft ∧ (t = u ∨ exec .reset u = .next t ∨ exec .encode u = .next t)) ∨
    (s.atConfig ∧ ∃ c src u, c.wf = true ∧ s.Prepared u ∧ t = newCodec c src u) := by
  obtain ⟨-, hs⟩ | ⟨-, -, hs⟩ | ⟨-, w, o, rest, -, hs⟩ | ⟨-, bs, rest, -, hs⟩ | ⟨-, rest, -, hs⟩ | ⟨-, rest, -, hs⟩ |
    ⟨-, k, rest, -, hs⟩ | ⟨hf, n, k, r, src, rest, hq, hs⟩ := step_cases s <;> rw [hs] at h
  · exact .inl ⟨deliver s, ⟨rfl, rfl, rfl, id⟩, h⟩
  · cases h
    exact .inr (.inl ⟨deliver s, ⟨rfl, rfl, rfl, id⟩, rfl, .inl rfl⟩)
  · have hp := prepared_lendAny o rest s
    obtain ⟨-, hw⟩ | ⟨-, hw⟩ | ⟨-, hw⟩ | ⟨-, hw⟩ := decodeCommand_cases w <;> rw [hw] at h
    · exact .inr (.inl ⟨_, hp, by simp, .inr (.inl h)⟩)
    · exact .inr (.inl ⟨_, hp, by simp, .inr (.inr h)⟩)
    · exact .inl ⟨_, hp, h⟩
    · cases h
  · cases h
    exact .inr (.inl ⟨srcAppend bs { deliver s with script := rest }, ⟨rfl, rfl, rfl, id⟩, rfl, .inl rfl⟩)
  · cases h
    exact .inr (.inl ⟨pushDst { deliver s with script := rest }, ⟨rfl, rfl, rfl, id⟩, rfl, .inl rfl⟩)
  · cases h
    exact .inr (.inl ⟨{ deliver s with script := rest }, ⟨rfl, rfl, rfl, id⟩, rfl, .inl rfl⟩)
  · exact .inl ⟨{ deliver s with script := rest, drainLeft := some k }, ⟨rfl, rfl, rfl, id⟩, h⟩
  · obtain ⟨e, hc⟩ | ⟨c, hwf, hc⟩ := runConfig_cases n k r src { deliver s with script := rest } <;> rw [hc] at h <;> cases h
    exact .inr (.inr ⟨⟨hf, n, k, r, src, rest, hq⟩, c, src, { deliver s with script := rest }, hwf, ⟨rfl, rfl, rfl, id⟩, rfl⟩)

/-! ### The invariants along a step -/

/-- A step runs its instruction in a state that meets the invariants, where a noted DRAIN has its FEED in progress. -/
theorem State.Inv.prepared {s u : State} (hi : s.Inv) (hp : s.Prepared u) (hdr : u.drainLeft ≠ none → u.feeding = true) : u.Inv :=
  hi.of_decoder hp.decoder (hp.buffer hi.buffer) hdr

/-- Once FEED is in progress, a DRAIN just noted needs no premise. -/
theorem State.Inv.prepared_feeding {s u : State} (hi : s.Inv) (hp : s.Prepared u) : ({ u with feeding := true } : State).Inv :=
  hi.of_decoder hp.decoder (hp.buffer hi.buffer) fun _ => rfl

theorem execFeed_keeps_inv {s t : State} (hi : ({ s with feeding := true } : State).Inv) (h : exec .feed s = .next t) : t.Inv := by
  obtain ⟨-, hf⟩ | ⟨b, rest, -, -, hf⟩ := execFeed_cases s <;> rw [hf] at h
  · cases h
    exact hi.of_decoder (endFeed_decoder _ s) (by simpa using hi.buffer) (by simp)
  · have hir : ({ s with feeding := true, src := rest } : State).Inv := hi.of_decoder rfl hi.buffer fun _ => rfl
    exact dstep_keeps_inv hir h

theorem execReset_keeps_inv {s t : State} (hi : s.Inv) (h : exec .reset s = .next t) : t.Inv := by
  cases h
  exact hi.of_header (by simp) rfl rfl rfl rfl rfl rfl hi.drain

theorem execEncode_keeps_inv {s t : State} (hi : s.Inv) (h : exec .encode s = .next t) : t.Inv := by
  obtain ⟨m, o, rfl, hm⟩ := execEncode_frame h
  exact hi.of_decoder rfl (hm hi.buffer) hi.drain

/-- Settles O45: whatever a step runs keeps the invariants. -/
theorem everyStepKeepsTheInvariants : Obligations.EveryStepKeepsTheInvariants := by
  intro s t hi h
  obtain ⟨u, hp, hu⟩ | ⟨u, hp, hd, hu⟩ | ⟨-, c, src, u, hc, hp, rfl⟩ := step_next_cases h
  · exact execFeed_keeps_inv (hi.prepared_feeding hp) hu
  · have hiu : u.Inv := hi.prepared hp (by rw [hd, hp.feeding]; exact hi.drain)
    obtain rfl | hu | hu := hu
    · exact hiu
    · exact execReset_keeps_inv hiu hu
    · exact execEncode_keeps_inv hiu hu
  · exact newCodec_inv c src u hc (hp.buffer hi.buffer)

/-- Settles O13: both counters are 0 in AWAITING_START1, and the arrays have their lengths. -/
theorem invariantsHoldAtReset : Obligations.InvariantsHoldAtReset :=
  ⟨⟨by decide, fun _ => ⟨rfl, rfl⟩, fun h => (by cases h), rfl, rfl, rfl, fun h => absurd rfl h⟩,
    ⟨fun _ _ h => (by cases h), fun _ _ h => (by cases h)⟩⟩

/-- Settles O12: the values are those the reset state is written with. -/
theorem resetHoldsTheCreationValues : Obligations.ResetHoldsTheCreationValues := ⟨rfl, rfl, rfl, rfl, rfl, rfl, rfl⟩

/-! ### What a step leaves of the configuration and of `record_out` -/

/-- A step that is no CONFIG keeps the configuration, and writes `record_out` only with a FrameReady. -/
theorem step_frame {s t : State} (hn : ¬ s.atConfig) (h : step s = .next t) :
    t.cfg = s.cfg ∧ (t.recordOut ≠ s.recordOut → t.outputs = s.outputs ++ [.frameReady (t.recordOut.take t.cfg.size)]) := by
  obtain ⟨u, hp, hu⟩ | ⟨u, hp, -, hu⟩ | ⟨hc, -⟩ := step_next_cases h
  · obtain ⟨-, -, -, hcfg, -, hout⟩ := execFeed_frame hu
    rw [← hp.cfg, ← hp.recordOut, ← hp.outputs]
    exact ⟨hcfg, hout⟩
  · have ht : t.cfg = u.cfg ∧ t.recordOut = u.recordOut := by
      obtain rfl | hu | hu := hu
      · exact ⟨rfl, rfl⟩
      · cases hu
        exact ⟨rfl, rfl⟩
      · obtain ⟨m, o, rfl, -⟩ := execEncode_frame hu
        exact ⟨rfl, rfl⟩
    exact ⟨ht.1.trans hp.cfg, fun hne => absurd (ht.2.trans hp.recordOut) hne⟩
  · exact absurd hc hn

/-- Settles O10, by the frame of a step. -/
theorem configurationIsReadOnly : Obligations.ConfigurationIsReadOnly := fun _ _ hn h => (step_frame hn h).1

/-- Settles O48: under the invariants the record of the FrameReady is all of `record_out`. -/
theorem recordOutChangesOnlyOnFrameReady : Obligations.RecordOutChangesOnlyOnFrameReady := by
  intro s t hi hn h hne
  have hout := (step_frame hn h).2 hne
  have hlen := (everyStepKeepsTheInvariants s t hi h).outLength
  rwa [List.take_of_length_le hlen.le] at hout

/-! ### Unwritten bytes are never seen (10_state.md R35) -/

/-- The same machine with other arrays. -/
def withArrays (r q : List Byte) (s : State) : State := { s with rxBuf := r, recordOut := q }

/-- Two outcomes that agree but for unwritten bytes, of steps before which the two `record_out` held `q` and `q'`. Neither is a fault. -/
def SameStep (q q' : List Byte) : Out → Out → Prop
  | .next t, .next t' => t.sameWritten t' ∧ (t.recordOut = t'.recordOut ∨ t.recordOut = q ∧ t'.recordOut = q')
  | .refused r, .refused r' => r = r'
  | _, _ => False

theorem sameStep_refused (q q' : List Byte) (e : Refusal) : SameStep q q' (.refused e) (.refused e) := rfl

theorem sameStep_refl (q q' : List Byte) (t : State) : SameStep q q' (.next t) (.next t) := ⟨⟨rfl, rfl⟩, .inl rfl⟩

/-- Where the first goes on the second does. -/
theorem SameStep.of_next {q q' : List Byte} {t : State} {o : Out} (h : SameStep q q' (.next t) o) :
    ∃ t', o = .next t' ∧ t.sameWritten t' ∧ (t.recordOut = t'.recordOut ∨ t.recordOut = q ∧ t'.recordOut = q') := by
  cases o with
  | next t' => exact ⟨t', rfl, h⟩
  | fault f => exact h.elim
  | refused e => exact h.elim

/-- Where the first is refused the second is. -/
theorem SameStep.of_refused {q q' : List Byte} {e : Refusal} {o : Out} (h : SameStep q q' (.refused e) o) : o = .refused e := by
  cases o with
  | next t' => exact h.elim
  | fault f => exact h.elim
  | refused e' => exact congrArg Host.Outcome.refused (Eq.symm h)

/-- A step that keeps the arrays, and the counter or clears it, leaves the difference as it was. -/
theorem sameStep_of_kept {s t : State} {r q : List Byte} (h : s.rxBuf.take s.fillCount.toNat = r.take s.fillCount.toNat)
    (hrx : t.rxBuf = s.rxBuf) (hout : t.recordOut = s.recordOut) (hfc : t.fillCount = s.fillCount ∨ t.fillCount = 0) :
    SameStep s.recordOut q (.next t) (.next (withArrays r q t)) := by
  refine ⟨⟨rfl, ?_⟩, .inr ⟨hout, rfl⟩⟩
  show t.rxBuf.take t.fillCount.toNat = r.take t.fillCount.toNat
  obtain hfc | hfc := hfc <;> rw [hfc, hrx]
  · exact h
  · rfl

theorem endFeed_withArrays (o : Output) (r q : List Byte) (s : State) :
    endFeed o (withArrays r q s) = withArrays r q (endFeed o s) := by
  cases h : s.drainLeft with
  | none => simp [endFeed, respond, withArrays, h]
  | some k => by_cases ho : o = .needMoreData <;> simp [endFeed, respond, withArrays, h, ho]

/-- At the end of a frame no byte of `rx_buf` counts as written. -/
theorem sameWritten_endFeed_returned (o : Output) (r q : List Byte) (s : State) :
    (endFeed o (returnToStart1 s)).sameWritten (endFeed o (returnToStart1 (withArrays r q s))) := by
  have he : endFeed o (returnToStart1 (withArrays r q s)) = withArrays r q (endFeed o (returnToStart1 s)) :=
    endFeed_withArrays o r q (returnToStart1 s)
  rw [he]
  exact ⟨rfl, by simp⟩

/-- A store at `i` adds the byte to the first `i`. -/
theorem take_succ_set (l : List Byte) (i : Nat) (b : Byte) (h : i < l.length) : (l.set i b).take (i + 1) = l.take i ++ [b] := by
  rw [List.take_add_one, take_set_at_end, List.getElem?_set_self h, Option.toList_some]

/-- R126 to R128: what `DSTEP` stores, compares and copies is the same in both. -/
theorem dstep_sameStep (b : Byte) (s : State) (r q : List Byte) (hi : s.Inv) (hi' : (withArrays r q s).Inv)
    (h : s.rxBuf.take s.fillCount.toNat = r.take s.fillCount.toNat) :
    SameStep s.recordOut q (dstep b s) (dstep b (withArrays r q s)) := by
  cases hst : s.st with
  | start1 =>
    rw [dstep_start1 b s hst, dstep_start1 b (withArrays r q s) hst]
    exact sameStep_of_kept (t := { s with st := _ }) h rfl rfl (.inl rfl)
  | start2 =>
    rw [dstep_start2 b s hst, dstep_start2 b (withArrays r q s) hst]
    exact sameStep_of_kept (t := { s with st := _ }) h rfl rfl (.inl rfl)
  | length =>
    by_cases hb : b = s.cfg.n
    · have h' := dstep_length_ok (withArrays r q s) hst
      rw [hb, dstep_length_ok s hst]
      exact h' ▸ sameStep_of_kept (t := { s with expectedLength := s.cfg.n, fillCount := 0, st := .payload }) h rfl rfl (.inr rfl)
    · rw [dstep_length_bad b s hst hb, dstep_length_bad b (withArrays r q s) hst hb]
      exact ⟨sameWritten_endFeed_returned _ r q s, .inr (by simp [withArrays])⟩
  | payload =>
    by_cases hf : s.fillCount.toNat < s.cfg.size
    · rw [dstep_payload_store b s hi hst hf, dstep_payload_store b (withArrays r q s) hi' hst hf]
      refine ⟨⟨rfl, ?_⟩, .inr ⟨rfl, rfl⟩⟩
      have hr : s.fillCount.toNat < r.length := fillCount_inside (withArrays r q s) hi' hst
      show (s.rxBuf.set s.fillCount.toNat b).take (s.fillCount + 1).toNat = (r.set s.fillCount.toNat b).take (s.fillCount + 1).toNat
      rw [fillCount_succ s hi hst, take_succ_set _ _ b (fillCount_inside s hi hst), take_succ_set _ _ b hr, h]
    · have hfull : s.fillCount.toNat = s.cfg.size := by have := (hi.payload hst).2; omega
      have hrec : s.rxBuf.take s.cfg.size = r.take s.cfg.size := hfull ▸ h
      by_cases hc : checksum s.cfg.n (s.rxBuf.take s.cfg.size) = b
      · rw [dstep_payload_complete b s hi hst hfull hc,
          dstep_payload_complete b (withArrays r q s) hi' hst hfull (hrec ▸ hc)]
        show SameStep _ _ _ (.next (endFeed (.frameReady (r.take s.cfg.size)) (returnToStart1
          (withArrays (r.set s.cfg.size b) (r.take s.cfg.size)
            { s with rxBuf := s.rxBuf.set s.cfg.size b, recordOut := s.rxBuf.take s.cfg.size }))))
        rw [← hrec]
        exact ⟨sameWritten_endFeed_returned _ _ _ _, .inl (by simp [withArrays])⟩
      · rw [dstep_payload_reject b s hi hst hfull hc,
          dstep_payload_reject b (withArrays r q s) hi' hst hfull (hrec ▸ hc)]
        exact ⟨sameWritten_endFeed_returned _ (r.set s.cfg.size b) q { s with rxBuf := s.rxBuf.set s.cfg.size b },
          .inr (by simp [withArrays])⟩

theorem execFeed_sameStep (s : State) (r q : List Byte) (hi : ({ s with feeding := true } : State).Inv)
    (hi' : ({ withArrays r q s with feeding := true } : State).Inv)
    (h : s.rxBuf.take s.fillCount.toNat = r.take s.fillCount.toNat) :
    SameStep s.recordOut q (exec .feed s) (exec .feed (withArrays r q s)) := by
  obtain ⟨hm, hf⟩ | ⟨b, rest, hs, hm, hf⟩ := execFeed_cases s <;>
    obtain ⟨hm', hf'⟩ | ⟨b', rest', hs', hm', hf'⟩ := execFeed_cases (withArrays r q s) <;> rw [hf, hf']
  · rw [endFeed_withArrays]
    exact sameStep_of_kept h (by simp) (by simp) (by simp)
  · exact absurd (hm.symm.trans hm') (by decide)
  · exact absurd (hm.symm.trans hm') (by decide)
  · obtain ⟨rfl, rfl⟩ := List.cons.inj (hs.symm.trans hs')
    have hir : ({ s with feeding := true, src := rest } : State).Inv := hi.of_decoder rfl hi.buffer fun _ => rfl
    have hir' : ({ withArrays r q s with feeding := true, src := rest } : State).Inv :=
      hi'.of_decoder rfl hi'.buffer fun _ => rfl
    exact dstep_sameStep b { s with feeding := true, src := rest } r q hir hir' h

theorem execEncode_sameStep (s : State) (r q : List Byte) (h : s.rxBuf.take s.fillCount.toNat = r.take s.fillCount.toNat) :
    SameStep s.recordOut q (exec .encode s) (exec .encode (withArrays r q s)) := by
  by_cases hl : s.recIn.length = s.cfg.size
  · by_cases hc : s.cap < s.cfg.frameLen
    · rw [exec_encode_tooSmall s hl hc, exec_encode_tooSmall (withArrays r q s) hl hc]
      exact sameStep_of_kept (t := respond .bufferTooSmall s) h rfl rfl (.inl rfl)
    · rw [exec_encode_fits s hl (by omega), exec_encode_fits (withArrays r q s) hl (Nat.not_lt.mp hc)]
      exact sameStep_of_kept (t := respond .encodeOk { s with dst := Memory.writeBytes s.dst 0 (frame s.cfg.n s.recIn) }) h
        rfl rfl (.inl rfl)
  · rw [exec_encode_refused s hl, exec_encode_refused (withArrays r q s) hl]
    exact sameStep_refused _ _ _

theorem execCommand_sameStep (w : Byte) (s : State) (r q : List Byte) (hi : ({ s with feeding := true } : State).Inv)
    (hi' : ({ withArrays r q s with feeding := true } : State).Inv)
    (h : s.rxBuf.take s.fillCount.toNat = r.take s.fillCount.toNat) :
    SameStep s.recordOut q (exec (decodeCommand w) s) (exec (decodeCommand w) (withArrays r q s)) := by
  obtain ⟨-, hw⟩ | ⟨-, hw⟩ | ⟨-, hw⟩ | ⟨-, hw⟩ := decodeCommand_cases w
  · rw [hw]
    exact sameStep_of_kept (t := respond .resetDone (returnToStart1 s)) h rfl rfl (.inr rfl)
  · rw [hw]
    exact execEncode_sameStep s r q h
  · rw [hw]
    exact execFeed_sameStep s r q hi hi' h
  · rw [hw, hw]
    exact sameStep_refused _ _ _

/-- A step takes the same course in both. -/
theorem step_sameStep (s : State) (r q : List Byte) (hi : s.Inv) (hi' : (withArrays r q s).Inv)
    (h : s.rxBuf.take s.fillCount.toNat = r.take s.fillCount.toNat) :
    SameStep s.recordOut q (step s) (step (withArrays r q s)) := by
  obtain ⟨hf, hs⟩ | ⟨hf, hq, hs⟩ | ⟨hf, w, o, rest, hq, hs⟩ | ⟨hf, bs, rest, hq, hs⟩ | ⟨hf, rest, hq, hs⟩ | ⟨hf, rest, hq, hs⟩ |
    ⟨hf, k, rest, hq, hs⟩ | ⟨hf, n, k, c, src, rest, hq, hs⟩ := step_cases s <;> rw [hs]
  · rw [step_feeding (withArrays r q s) hf]
    exact execFeed_sameStep (deliver s) r q (hi.prepared_feeding ⟨rfl, rfl, rfl, id⟩) (hi'.prepared_feeding ⟨rfl, rfl, rfl, id⟩) h
  · rw [step_idle (withArrays r q s) hf hq]
    exact sameStep_of_kept (t := deliver s) h rfl rfl (.inl rfl)
  · rw [step_issue (withArrays r q s) _ _ hf hq]
    have hp := hi.prepared_feeding (prepared_lendAny o rest s)
    have hp' := hi'.prepared_feeding (prepared_lendAny o rest (withArrays r q s))
    cases o with
    | none => exact execCommand_sameStep w _ r q hp hp' h
    | some ops => exact execCommand_sameStep w _ r q hp hp' h
  · rw [step_issue (withArrays r q s) _ _ hf hq]
    exact sameStep_of_kept (t := srcAppend bs { deliver s with script := rest }) h rfl rfl (.inl rfl)
  · rw [step_issue (withArrays r q s) _ _ hf hq]
    exact sameStep_of_kept (t := pushDst { deliver s with script := rest }) h rfl rfl (.inl rfl)
  · rw [step_issue (withArrays r q s) _ _ hf hq]
    exact sameStep_of_kept (t := { deliver s with script := rest }) h rfl rfl (.inl rfl)
  · rw [step_issue (withArrays r q s) _ _ hf hq]
    exact execFeed_sameStep { deliver s with script := rest, drainLeft := some k } r q (hi.prepared_feeding ⟨rfl, rfl, rfl, id⟩)
      (hi'.prepared_feeding ⟨rfl, rfl, rfl, id⟩) h
  · rw [step_issue (withArrays r q s) _ _ hf hq]
    show SameStep _ _ _ (runConfig n k c src { deliver s with script := rest })
    obtain ⟨e, hc⟩ | ⟨c, -, hc⟩ := runConfig_cases n k c src { deliver s with script := rest } <;> rw [hc]
    · exact sameStep_refused _ _ _
    · exact sameStep_refl _ _ _

/-- Settles O31: the second machine is the first with other arrays, and a step takes the same course in both. -/
theorem unwrittenBytesAreNeverSeen : Obligations.UnwrittenBytesAreNeverSeen := by
  rintro s s' hi hi' ⟨heq, hw⟩
  have hstep : SameStep s.recordOut s'.recordOut (step s) (step s') := by
    have h := step_sameStep s s'.rxBuf s'.recordOut hi (heq ▸ hi') hw
    rwa [withArrays, ← heq] at h
  refine ⟨fun t ht => ?_, fun e he => ?_⟩
  · rw [ht] at hstep
    obtain ⟨t', ht', hsame, hout⟩ := hstep.of_next
    exact ⟨t', ht', hsame, (congrArg State.outputs hsame.1).symm, hout⟩
  · rw [he] at hstep
    exact hstep.of_refused

end Sys2Proof.Machine

/-! PROOFS. The byte source (20_memory.md): what FEED and a step take from it and append to it. -/

namespace Sys2Proof.Machine

@[simp] theorem lendAny_src (o : Option Operands) (s : State) : (lendAny o s).src = s.src := by
  cases o <;> rfl

/-- The byte a transition runs on has been read before: the transition itself leaves the source. -/
theorem runTransition_src {tr : Transition} {b : Byte} {s t : State} (h : runTransition tr b s = .next t) : t.src = s.src := by
  obtain ⟨st, el, fc, rfl⟩ | ⟨-, rfl⟩ | ⟨-, -, rfl⟩ | ⟨-, -, rfl⟩ | ⟨-, -, r, rfl⟩ := runTransition_next tr b s t h <;> simp

/-- FEED's micro-step leaves the source, or takes its oldest byte (20_memory.md R52). -/
theorem execFeed_src {s t : State} (h : exec .feed s = .next t) : t.src = s.src ∨ ∃ b, s.src = b :: t.src := by
  obtain ⟨-, hf⟩ | ⟨b, rest, hs, -, hf⟩ := execFeed_cases s <;> rw [hf] at h
  · cases h
    exact .inl (endFeed_src _ s)
  · have hrest : t.src = rest := runTransition_src h
    exact .inr ⟨b, by rw [hs, hrest]⟩

/-- A command word takes a byte from the source only where it is FEED's. -/
theorem execCommand_src {w : Byte} {s t : State} (h : exec (decodeCommand w) s = .next t) :
    t.src = s.src ∨ (w = 0x02 ∧ ∃ b, s.src = b :: t.src) := by
  obtain ⟨-, hw⟩ | ⟨-, hw⟩ | ⟨rfl, hw⟩ | ⟨-, hw⟩ := decodeCommand_cases w <;> rw [hw] at h
  · cases h
    exact .inl rfl
  · obtain ⟨m, o, rfl, -⟩ := execEncode_frame h
    exact .inl rfl
  · exact (execFeed_src h).imp_right fun hb => ⟨rfl, hb⟩
  · cases h

/-- Settles O9, by the kinds of a step: one that runs FEED may take the oldest byte, PUSH and PUSHDST append theirs behind the
environment's, and the rest leaves what the environment delivered. -/
theorem sourceIsAFifo : Obligations.SourceIsAFifo := by
  intro s t hn h
  obtain ⟨hf, hs⟩ | ⟨hf, hq, hs⟩ | ⟨hf, w, o, rest, hq, hs⟩ | ⟨hf, bs, rest, hq, hs⟩ | ⟨hf, rest, hq, hs⟩ | ⟨hf, rest, hq, hs⟩ |
    ⟨hf, k, rest, hq, hs⟩ | ⟨hf, n, k, r, src, rest, hq, hs⟩ := step_cases s <;> rw [hs] at h
  · obtain hsrc | hread := execFeed_src h
    · exact .inr (by simpa [hf] using hsrc)
    · exact .inl ⟨.inl hf, hread⟩
  · cases h
    exact .inr (by simp [hf, hq])
  · obtain hsrc | ⟨rfl, hread⟩ := execCommand_src h
    · exact .inr (by simpa [hf, hq] using hsrc)
    · exact .inl ⟨.inr ⟨rest, .inl ⟨o, hq⟩⟩, by simpa using hread⟩
  · cases h
    exact .inr (by simp [hf, hq])
  · cases h
    exact .inr (by simp [hf, hq, Config.frameLen])
  · cases h
    exact .inr (by simp [hf, hq])
  · obtain hsrc | hread := execFeed_src h
    · exact .inr (by simpa [hf, hq] using hsrc)
    · exact .inl ⟨.inr ⟨rest, .inr ⟨k, hq⟩⟩, hread⟩
  · exact absurd ⟨hf, n, k, r, src, rest, hq⟩ hn

end Sys2Proof.Machine

/-! PROOFS. The encodings (30_encoding.md): words and keys decode and encode alike, reserved words stop, a frame has its layout and a
result its code, and what the statements that have no word do, a DRAIN among them. -/

namespace Sys2Proof

/-! ### The fields of a command word (30_encoding.md R74) -/

/-- A word is its two fields. -/
theorem word_of_fields (w : Byte) : zeroField w ++ opField w = w := by
  apply BitVec.eq_of_getLsbD_eq
  intro i hi
  rw [zeroField, opField, BitVec.getLsbD_append, BitVec.getLsbD_extractLsb', BitVec.getLsbD_extractLsb']
  by_cases h : i < 2
  · simp [h]
  · have h6 : i - 2 < 6 := by omega
    have hs : 2 + (i - 2) = i := by omega
    simp [h, h6, hs]

/-- R75, R78: a word that is not reserved is one of the three command words. -/
theorem word_of_not_reserved {w : Byte} (ho : opField w ≠ 0b11#2) (hz : zeroField w = 0) : w = 0x00 ∨ w = 0x01 ∨ w = 0x02 := by
  have h : ∀ op : BitVec 2, op ≠ 0b11#2 → 0#6 ++ op = 0x00#8 ∨ 0#6 ++ op = 0x01#8 ∨ 0#6 ++ op = 0x02#8 := by decide
  rw [← word_of_fields w, hz]
  exact h _ ho

/-! ### The reserved rows, the first that matches taken (log 11) -/

theorem noEarlierRow_two (w : Byte) : noEarlierRow w 2 = true ↔ opField w ≠ 0b11#2 := by
  simp [noEarlierRow, opField, List.range_succ]

theorem noEarlierRow_succ {k : Nat} (w : Byte) (hk : 2 ≤ k) :
    noEarlierRow w (k + 1) = true ↔ noEarlierRow w k = true ∧ w.getLsbD k = false := by
  have hlt : ¬ k < 2 := by omega
  simp only [noEarlierRow, List.range_succ, List.all_append, List.all_cons, List.all_nil, hlt, decide_false, Bool.false_or,
    Bool.and_true, Bool.and_eq_true, Bool.not_eq_true', and_assoc]

/-- A word that no row of the table's seven matches has no bit in its upper field. -/
theorem zeroField_of_noEarlierRow {w : Byte} (h : noEarlierRow w 8 = true) : zeroField w = 0 := by
  simp only [noEarlierRow, Bool.and_eq_true, List.all_eq_true, List.mem_range] at h
  obtain ⟨-, hbits⟩ := h
  apply BitVec.eq_of_getLsbD_eq
  intro i hi
  have hlt : ¬ 2 + i < 2 := by omega
  simpa [zeroField, hi, hlt] using hbits (2 + i) (by omega)

/-- A word decodes to a well-formed instruction that it encodes. -/
theorem encode_decodeCommand (w : Byte) : (decodeCommand w).wf = true ∧ encode (decodeCommand w) = .command w := by
  by_cases hr : opField w ≠ 0b11#2 ∧ zeroField w = 0
  · obtain rfl | rfl | rfl := word_of_not_reserved hr.1 hr.2 <;> decide
  · unfold decodeCommand
    split_ifs with h3 b2 b3 b4 b5 b6 b7
    · exact ⟨beq_iff_eq.mpr h3, rfl⟩
    iterate 6 exact ⟨by simp_all [Instr.wf, noEarlierRow_two, noEarlierRow_succ], rfl⟩
    all_goals
      have hnone : noEarlierRow w 8 = true := by simp_all [noEarlierRow_two, noEarlierRow_succ]
      exact absurd ⟨h3, zeroField_of_noEarlierRow hnone⟩ hr

/-- A well-formed command is what its word decodes to. -/
theorem decodeCommand_of_encode {i : Instr} {w : Byte} (hw : i.wf = true) (he : encode i = .command w) : decodeCommand w = i := by
  cases i <;> cases he
  case reset | encode | feed => decide
  case reservedOp3 =>
    have ho : opField w = 0b11#2 := beq_iff_eq.mp hw
    simp [decodeCommand, ho]
  case reservedBit2 | reservedBit3 | reservedBit4 | reservedBit5 | reservedBit6 | reservedBit7 =>
    simp_all [Instr.wf, noEarlierRow_two, noEarlierRow_succ, decodeCommand]

/-! ### The rows of the transition table (30_encoding.md R79) -/

theorem makeKey_inj {st st' : DecState} {b b' : Byte} : makeKey st b = makeKey st' b' ↔ st = st' ∧ b = b' := by
  refine ⟨fun h => ⟨?_, ?_⟩, fun ⟨hs, hb⟩ => by rw [hs, hb]⟩
  · simpa using congrArg keyState h
  · simpa using congrArg keyByte h

/-- The decoder state a row is for. -/
def Transition.state : Transition → DecState
  | .s1Match | .s1Skip => .start1
  | .s2Match | .s2Retest | .s2Fail => .start2
  | .lenOk | .lenBad => .length
  | .payStore | .payCsOk | .payCsBad => .payload

/-- The marker a row fixes the byte to; the other rows leave it open. -/
def Transition.marker : Transition → Option Byte
  | .s1Match | .s2Retest => some mark0
  | .s2Match => some mark1
  | .s1Skip | .s2Fail | .lenOk | .lenBad | .payStore | .payCsOk | .payCsBad => none

/-- A row masks the whole key where it fixes the byte, and the state alone where it leaves the byte open. -/
theorem Transition.row_eq (t : Transition) :
    t.row = match t.marker with
      | some m => ⟨BitVec.allOnes 10, makeKey t.state m⟩
      | none => ⟨BitVec.allOnes 2 ++ 0#8, makeKey t.state 0⟩ := by
  cases t <;> decide

theorem Transition.row_matches_iff (t : Transition) (st : DecState) (b : Byte) :
    makeKey st b &&& t.row.mask = t.row.pattern ↔ st = t.state ∧ ∀ m ∈ t.marker, b = m := by
  rw [row_eq]
  cases t.marker with
  | some m =>
    dsimp only
    rw [BitVec.and_allOnes, makeKey_inj]
    simp
  | none =>
    have hmask : makeKey st b &&& (BitVec.allOnes 2 ++ 0#8) = makeKey st 0 := by
      rw [makeKey, BitVec.and_append, BitVec.and_allOnes, BitVec.and_zero]
      rfl
    dsimp only
    rw [hmask, makeKey_inj]
    simp

theorem Transition.selects_makeKey (c : KeyContext) (st : DecState) (b : Byte) (t : Transition) :
    t.selects c (makeKey st b) = true ↔ st = t.state ∧ (∀ m ∈ t.marker, b = m) ∧ t.condition c b = true := by
  simp [selects, row_matches_iff, and_assoc]

theorem Transition.condition_s2Fail (c : KeyContext) (b : Byte) :
    Transition.s2Fail.condition c b = true ↔ b ≠ mark1 ∧ ¬ (b = mark0 ∧ c.retest = true) := by
  simp [condition, imp_iff_not_or]

/-- A row that selects a key is the decoder's: its condition answers the tests the decoder makes in its state. -/
theorem decodeTransition_of_selected {c : KeyContext} {t : Transition} {b : Byte} (hm : ∀ m ∈ t.marker, b = m)
    (hc : t.condition c b = true) : decodeTransition c (makeKey t.state b) = t := by
  have hne : mark0 ≠ mark1 := by decide
  rw [decodeTransition_makeKey]
  cases t
  case s2Fail =>
    obtain ⟨h1, h0⟩ := (Transition.condition_s2Fail c b).mp hc
    simp only [Transition.state, if_neg h1, if_neg h0]
  all_goals simp_all [Transition.state, Transition.marker, Transition.condition]

/-- The decoder's row selects the key: the tests that led to it give its condition. -/
theorem selects_decodeTransition (c : KeyContext) (st : DecState) (b : Byte) :
    (decodeTransition c (makeKey st b)).selects c (makeKey st b) = true := by
  rw [Transition.selects_makeKey, decodeTransition_makeKey]
  cases st <;> dsimp only
  case start1 => split_ifs with h0 <;> simp [Transition.state, Transition.marker, Transition.condition, h0]
  case start2 =>
    split_ifs with h1 h0
    · simp [Transition.state, Transition.marker, Transition.condition, h1]
    · simp [Transition.state, Transition.marker, Transition.condition, h0]
    · exact ⟨rfl, nofun, (Transition.condition_s2Fail c b).mpr ⟨h1, h0⟩⟩
  case length => split_ifs with hn <;> simp [Transition.state, Transition.marker, Transition.condition, hn]
  case payload => split_ifs with hf hk <;> simp [Transition.state, Transition.marker, Transition.condition, *]

/-- Settles O4: a row that selects a key is the decoder's, and the decoder's selects it. -/
theorem everyKeySelectsExactlyOneRow : Obligations.EveryKeySelectsExactlyOneRow := by
  intro c k t
  obtain ⟨st, b, rfl⟩ := key_cases k
  constructor
  · intro h
    obtain ⟨rfl, hm, hc⟩ := (Transition.selects_makeKey c st b t).mp h
    exact (decodeTransition_of_selected hm hc).symm
  · rintro rfl
    exact selects_decodeTransition c st b

/-! ### Decoding and encoding -/

/-- A transition's instruction has the condition of its row. -/
theorem condition_instr (c : KeyContext) (t : Transition) (b : Byte) : (t.instr b).condition c = t.condition c b := by
  cases t <;> rfl

/-- What a key decodes to is selected, so its row's condition holds. -/
theorem condition_decodeKey (c : KeyContext) (st : DecState) (b : Byte) : (decodeKey c (makeKey st b)).condition c = true := by
  obtain ⟨-, -, hc⟩ := (Transition.selects_makeKey c st b _).mp (selects_decodeTransition c st b)
  rw [decodeKey, condition_instr, keyByte_makeKey, hc]

/-- An instruction with a key is a transition, on the marker where its row fixes the byte. -/
theorem transition_of_encode {i : Instr} {k : Key} (he : encode i = .key k) :
    ∃ (t : Transition) (b : Byte), i = t.instr b ∧ k = makeKey t.state b ∧ ∀ m ∈ t.marker, b = m := by
  cases i <;> cases he
  case s1Match => exact ⟨.s1Match, mark0, rfl, rfl, by simp [Transition.marker]⟩
  case s1Skip b => exact ⟨.s1Skip, b, rfl, rfl, nofun⟩
  case s2Match => exact ⟨.s2Match, mark1, rfl, rfl, by simp [Transition.marker]⟩
  case s2Retest => exact ⟨.s2Retest, mark0, rfl, rfl, by simp [Transition.marker]⟩
  case s2Fail b => exact ⟨.s2Fail, b, rfl, rfl, nofun⟩
  case lenOk b => exact ⟨.lenOk, b, rfl, rfl, nofun⟩
  case lenBad b => exact ⟨.lenBad, b, rfl, rfl, nofun⟩
  case payStore b => exact ⟨.payStore, b, rfl, rfl, nofun⟩
  case payCsOk b => exact ⟨.payCsOk, b, rfl, rfl, nofun⟩
  case payCsBad b => exact ⟨.payCsBad, b, rfl, rfl, nofun⟩

/-- A transition whose row's condition holds is what its key decodes to. -/
theorem decodeKey_of_encode {i : Instr} {c : KeyContext} {k : Key} (hc : i.condition c = true) (he : encode i = .key k) :
    decodeKey c k = i := by
  obtain ⟨t, b, rfl, rfl, hm⟩ := transition_of_encode he
  rw [condition_instr] at hc
  rw [decodeKey, keyByte_makeKey, decodeTransition_of_selected hm hc]

/-- Settles O2: a command by its word's fields, a transition because its row alone selects its key. -/
theorem decodeOfEncodeIsTheInstruction : Obligations.DecodeOfEncodeIsTheInstruction := by
  intro i c hw hc
  cases he : encode i with
  | command w => exact decodeCommand_of_encode hw he
  | key k => exact decodeKey_of_encode hc he

/-- Settles O3: a word by the branches of the decoder, a key by the row that selects it. -/
theorem encodeOfDecodeIsTheWord : Obligations.EncodeOfDecodeIsTheWord := by
  refine ⟨encode_decodeCommand, fun c k => ?_⟩
  obtain ⟨st, b, rfl⟩ := key_cases k
  exact ⟨instr_of_selected c st b, condition_decodeKey c st b⟩

/-- Settles O1: each word and key is read bit by bit. -/
theorem decodesTheTablesWords : Obligations.DecodesTheTablesWords :=
  ⟨rfl, rfl, rfl, rfl, rfl, rfl, fun _ => ⟨rfl, rfl, rfl, rfl⟩⟩

end Sys2Proof

namespace Sys2Proof.Machine

/-! ### Reserved words, the frame and the result codes -/

/-- Settles O5: every word but the three command words is refused, and those three are the words that are not reserved. -/
theorem reservedWordsAreRefused : Obligations.ReservedWordsAreRefused := by
  intro w
  split_ifs with h
  · obtain ⟨rfl, -⟩ | ⟨rfl, -⟩ | ⟨rfl, -⟩ | ⟨-, hr⟩ := decodeCommand_cases w
    · exact absurd h (by decide)
    · exact absurd h (by decide)
    · exact absurd h (by decide)
    · exact hr
  · obtain ⟨ho, hz⟩ := not_or.mp h
    obtain rfl | rfl | rfl := word_of_not_reserved ho (not_not.mp hz) <;> decide

/-- Settles O6: the meaning of each reserved row is that refusal. -/
theorem reservedRowsStop : Obligations.ReservedRowsStop := fun _ _ => ⟨rfl, rfl, rfl, rfl, rfl, rfl, rfl⟩

/-- Settles O7, by the seven results. -/
theorem resultCodes : Obligations.ResultCodes := by
  refine ⟨rfl, fun _ => rfl, rfl, rfl, rfl, rfl, rfl, fun o => ?_⟩
  cases o <;> simp [Output.code]

/-- Settles O19: behind the three header bytes stand the record and its checksum. -/
theorem frameLayout : Obligations.FrameLayout := by
  intro n r hr
  refine ⟨by rw [length_frame, hr], rfl, rfl, rfl, fun i hi => ?_, ?_⟩
  · rw [Nat.add_comm]
    exact List.getElem?_append_left (l₁ := r) (hr.symm ▸ hi)
  · rw [Nat.add_comm, ← hr]
    exact List.getElem?_concat_length

/-! ### The statements that have no word (30_encoding.md R81, R82) -/

/-- Settles O60: an idle machine issues its next statement. -/
theorem statementsWithoutAWord : Obligations.StatementsWithoutAWord := fun s rest hf =>
  ⟨fun _ hq => step_issue s _ rest hf hq, fun hq => step_issue s _ rest hf hq, fun _ hq => step_issue s _ rest hf hq,
    fun hq => step_issue s _ rest hf hq, step_idle s hf⟩

/-- Where news ends a FEED of a DRAIN, the rest of the DRAIN comes next. -/
theorem endFeed_script_of_news {o : Output} {s : State} {k : Nat} (hd : s.drainLeft = some k) (ho : o ≠ .needMoreData) :
    (endFeed o s).script = .drain k :: s.script := by
  simp [endFeed, hd, ho]

/-- FEED's micro-step goes on without a result, or it ends FEED with one. -/
theorem execFeed_goes_on_or_ends {s t : State} (h : exec .feed s = .next t) :
    (t.feeding = true ∧ t.script = s.script ∧ t.drainLeft = s.drainLeft ∧ t.outputs = s.outputs) ∨
      ∃ o u, t = endFeed o u ∧ u.script = s.script ∧ u.drainLeft = s.drainLeft ∧ u.outputs = s.outputs := by
  obtain ⟨-, hf⟩ | ⟨b, rest, -, -, hf⟩ := execFeed_cases s <;> rw [hf] at h
  · cases h
    exact .inr ⟨.needMoreData, s, rfl, rfl, rfl, rfl⟩
  · obtain ⟨st, el, fc, rfl⟩ | ⟨-, rfl⟩ | ⟨-, -, rfl⟩ | ⟨-, -, rfl⟩ | ⟨-, -, r, rfl⟩ := runTransition_next _ b _ t h
    · exact .inl ⟨rfl, rfl, rfl, rfl⟩
    · exact .inr ⟨_, _, rfl, rfl, rfl, rfl⟩
    · exact .inl ⟨rfl, rfl, rfl, rfl⟩
    · exact .inr ⟨_, _, rfl, rfl, rfl, rfl⟩
    · exact .inr ⟨_, _, rfl, rfl, rfl, rfl⟩

/-- How far a DRAIN of `n` that is all of the script has come, with no result before it. -/
inductive Draining (n : Nat) (s : State) : Prop
  /-- It comes next, with `j` FEEDs left. -/
  | waiting (j : Nat) (idle : s.feeding = false) (queued : s.script = [.drain j]) (count : s.outputs.length + j = n)
      (news : .needMoreData ∉ s.outputs)
  /-- One of its FEEDs is in progress, with `j` left after it. -/
  | feeding (j : Nat) (busy : s.feeding = true) (empty : s.script = []) (left : s.drainLeft = some j)
      (count : s.outputs.length + 1 + j = n) (news : .needMoreData ∉ s.outputs)
  /-- It is over, with all its FEEDs issued. -/
  | used (idle : s.feeding = false) (empty : s.script = []) (count : s.outputs.length = n) (news : .needMoreData ∉ s.outputs)
  /-- It is over, stopped by a `NeedMoreData`. -/
  | starved (before : List Output) (idle : s.feeding = false) (empty : s.script = [])
      (given : s.outputs = before ++ [.needMoreData]) (count : before.length < n) (news : .needMoreData ∉ before)

/-- A micro-step of one of its FEEDs leaves that FEED in progress, gives the rest back to the script, or stops the DRAIN. -/
theorem execFeed_draining {n j : Nat} {s t : State} (hq : s.script = []) (hd : s.drainLeft = some j)
    (hc : s.outputs.length + 1 + j = n) (hn : .needMoreData ∉ s.outputs) (h : exec .feed s = .next t) : Draining n t := by
  obtain ⟨hf, hqt, hdt, hot⟩ | ⟨o, u, rfl, hqu, hdu, hou⟩ := execFeed_goes_on_or_ends h
  · exact .feeding j hf (hqt.trans hq) (hdt.trans hd) (hot ▸ hc) (hot ▸ hn)
  · by_cases ho : o = .needMoreData
    · subst ho
      exact .starved s.outputs (by simp) (by simp [hqu, hq]) (by simp [hou]) (by omega) hn
    · have hqe : (endFeed o u).script = [.drain j] := by rw [endFeed_script_of_news (hdu.trans hd) ho, hqu, hq]
      exact .waiting j (by simp) hqe (by simpa [hou] using hc) (by simp [hou, hn, Ne.symm ho])

theorem step_keeps_draining {n : Nat} (s t : State) (hs : Draining n s) (h : step s = .next t) : Draining n t := by
  cases hs with
  | waiting j hf hq hc hn =>
    obtain ⟨-, -, hsucc, hzero, -⟩ := statementsWithoutAWord s [] hf
    cases j with
    | zero =>
      rw [hzero hq] at h
      cases h
      exact .used hf rfl hc hn
    | succ j =>
      rw [hsucc j hq] at h
      exact execFeed_draining (s := { deliver s with script := [], drainLeft := some j }) rfl rfl (by simp; omega) hn h
  | feeding j hf hq hd hc hn =>
    rw [step_feeding s hf] at h
    exact execFeed_draining (s := deliver s) hq hd hc hn h
  | used hf hq hc hn =>
    rw [step_idle s hf hq] at h
    cases h
    exact .used hf hq hc hn
  | starved os hf hq ho hc hn =>
    rw [step_idle s hf hq] at h
    cases h
    exact .starved os hf hq ho hc hn

theorem Draining.length_le {n : Nat} {s : State} (h : Draining n s) : s.outputs.length ≤ n := by
  cases h with
  | waiting _ _ _ hc | feeding _ _ _ _ hc | used _ _ hc => omega
  | starved os _ _ ho hc =>
    rw [ho, List.length_append, List.length_singleton]
    exact hc

theorem Draining.needMoreData_last {n : Nat} {s : State} (h : Draining n s) (i : Nat)
    (hi : s.outputs[i]? = some .needMoreData) : i + 1 = s.outputs.length := by
  cases h with
  | waiting _ _ _ _ hn | feeding _ _ _ _ _ hn | used _ _ _ hn => exact absurd (List.mem_of_getElem? hi) hn
  | starved os _ _ ho _ hn =>
    rw [ho] at hi ⊢
    obtain ⟨hlt, -⟩ := List.getElem?_eq_some_iff.mp hi
    have hge : ¬ i < os.length := fun hin =>
      hn (List.mem_of_getElem? ((List.getElem?_append_left hin).symm.trans hi))
    simp only [List.length_append, List.length_singleton] at hlt ⊢
    omega

theorem Draining.all_used_or_starved {n : Nat} {s : State} (h : Draining n s) (hf : s.feeding = false) (hq : s.script = []) :
    s.outputs.length = n ∨ s.outputs.getLast? = some .needMoreData := by
  cases h with
  | waiting _ _ hq' => simp [hq] at hq'
  | feeding _ hf' => simp [hf] at hf'
  | used _ _ hc => exact .inl hc
  | starved os _ _ ho => exact .inr (by simp [ho])

/-- Settles O44: every step keeps the count of the FEEDs given and left. -/
theorem drainStopsAtNeedMoreData : Obligations.DrainStopsAtNeedMoreData := by
  intro n k s t _ hf hq ho h
  have hs : Draining n s := .waiting n hf hq (by simp [ho]) (by simp [ho])
  have ht : Draining n t := run_keeps step_keeps_draining hs h
  exact ⟨ht.length_le, ht.needMoreData_last, ht.all_used_or_starved⟩

end Sys2Proof.Machine

namespace Sys2Proof.Machine

/-! ### The checksum (40_checksum.md) -/

/-- A byte taken in twice cancels: only the parity of the repetitions counts (R100's corner cases). -/
theorem foldXor_replicate (seed b : Byte) (k : Nat) :
    foldXor seed (List.replicate k b) = if k % 2 = 1 then seed ^^^ b else seed := by
  induction k generalizing seed with
  | zero => rfl
  | succ k ih =>
    rw [List.replicate_succ, foldXor_cons, ih]
    obtain he | ho := Nat.mod_two_eq_zero_or_one k
    · simp [he, Nat.succ_mod_two_eq_one_iff.mpr he]
    · simp [ho, Nat.succ_mod_two_eq_zero_iff.mpr ho]

/-- A byte taken in with the seed may as well be taken in last. -/
theorem foldXor_xor_seed (seed d : Byte) (s : List Byte) : foldXor (seed ^^^ d) s = foldXor seed s ^^^ d := by
  rw [foldXor_seed, foldXor_seed s seed, BitVec.xor_assoc, BitVec.xor_comm d, BitVec.xor_assoc]

/-- A changed byte changes the fold by the XOR of its old and its new value. -/
theorem foldXor_set {s : List Byte} {i : Nat} {old : Byte} (new seed : Byte) (h : s[i]? = some old) :
    foldXor seed (s.set i new) = foldXor seed s ^^^ (old ^^^ new) := by
  induction s generalizing i seed with
  | nil => cases h
  | cons b s ih =>
    cases i with
    | zero =>
      cases h
      rw [List.set_cons_zero, foldXor_cons, foldXor_cons, foldXor_xor_seed, foldXor_xor_seed, BitVec.xor_assoc,
        xor_cancel_left]
    | succ i => exact ih _ h

/-- The order of the bytes does not matter: XOR is right commutative. -/
theorem foldXor_perm {s t : List Byte} (seed : Byte) (h : s.Perm t) : foldXor seed s = foldXor seed t := h.foldl_eq seed

/-- Settles O16: a replicated byte counts by the parity of the length. -/
theorem checksumAccumulates : Obligations.ChecksumAccumulates := by
  refine ⟨fun _ => rfl, fun len p b => foldXor_append len p [b], fun len => ?_, fun len => ?_, by decide⟩
  · simp [checksum, foldXor_replicate]
  · exact foldXor_replicate len 0xFF len.toNat

/-- Settles O17: the checksum cancels the fold it closes. -/
theorem checksumOfAFrameIsZero : Obligations.ChecksumOfAFrameIsZero := by
  refine ⟨fun len p => ?_, fun len _ _ h => foldXor_perm len h⟩
  calc foldXor len (p ++ [checksum len p])
      _ = checksum len p ^^^ checksum len p := foldXor_append len p _
      _ = 0 := BitVec.xor_self

/-- Settles O18: one change shows as a non-zero difference; two changes by the same `d` show as `d ^^^ d`. -/
theorem checksumDetectsOneChangedByte : Obligations.ChecksumDetectsOneChangedByte := by
  constructor
  · intro len p i x hi hx heq
    have hold : p[i]? = some p[i] := List.getElem?_eq_getElem hi
    rw [checksum, checksum, foldXor_set x len hold, xor_left_eq_self_iff, xor_eq_zero_iff] at heq
    exact hx (heq ▸ hold)
  · intro len d p i j x y hij hx hy
    have hy' : (p.set i (x ^^^ d))[j]? = some y := by rwa [List.getElem?_set_ne hij]
    rw [checksum, checksum, foldXor_set _ len hy', foldXor_set _ len hx, xor_cancel_left, xor_cancel_left, xor_cancel_right]

end Sys2Proof.Machine

/-! PROOFS. The encoder (41_encoder.md): what ENCODE writes and answers, and that a decoder of the same `N` gives the record back. -/

namespace Sys2Proof.Machine

/-! ### ENCODE's answers -/

/-- What is written where the frame fits: the frame reads back, and no other index has changed. -/
theorem Memory.read_frame_written {n : Byte} {r : List Byte} {m : Memory} {k : Nat} (hr : r.length = k) (hm : Memory.wf m = true) :
    Memory.readBytes (Memory.writeBytes m 0 (frame n r)) 0 (k + 4) = frame n r ∧
      ∀ a, k + 4 ≤ a → Memory.read (Memory.writeBytes m 0 (frame n r)) a = Memory.read m a := by
  have hlen : (frame n r).length = k + 4 := by rw [length_frame, hr]
  refine ⟨?_, fun a ha => Memory.read_writeBytes_outside _ m 0 a (.inr (by omega))⟩
  rw [← hlen]
  exact Memory.readBytes_writeBytes _ m 0 hm

/-- Settles O21: the answer before anything is written. -/
theorem bufferTooSmallWritesNothing : Obligations.BufferTooSmallWritesNothing := fun s hr hc => exec_encode_tooSmall s hr hc

/-- Settles O22: the length of the record is tested first. -/
theorem wrongRecordLengthIsRefused : Obligations.WrongRecordLengthIsRefused := exec_encode_refused

/-- Settles O20, by the two answers to a record of `N` bytes. -/
theorem encodeWritesTheFrame : Obligations.EncodeWritesTheFrame := by
  refine ⟨by decide, fun s hr hm => ?_⟩
  split_ifs with hc
  · exact bufferTooSmallWritesNothing s hr hc
  · obtain ⟨hread, hrest⟩ := Memory.read_frame_written (n := s.cfg.n) hr hm
    exact ⟨_, exec_encode_fits s hr (Nat.not_lt.mp hc), hread, hrest, Memory.wf_writeBytes _ _ 0 hm⟩

/-- Settles O23: the tests and the frame are the same in both states. -/
theorem encodeIsPure : Obligations.EncodeIsPure := by
  intro s s' t hn hrec hcap hm hm' h
  have hsize : s.cfg.size = s'.cfg.size := congrArg BitVec.toNat hn
  have hframe : s.cfg.frameLen = s'.cfg.frameLen := congrArg (· + 4) hsize
  obtain ⟨-, he⟩ | ⟨hr, hc, he⟩ | ⟨hr, hc, he⟩ := execEncode_cases s <;> rw [he] at h <;> cases h
  · exact ⟨_, .bufferTooSmall, exec_encode_tooSmall s' (by rw [← hrec, hr, hsize]) (by rwa [← hcap, ← hframe]), rfl, rfl,
      nofun, fun _ _ => rfl⟩
  · have hr' : s'.recIn.length = s.cfg.size := by rw [← hrec, hr]
    obtain ⟨hread, hrest⟩ := Memory.read_frame_written (n := s.cfg.n) hr hm
    obtain ⟨hread', -⟩ := Memory.read_frame_written (n := s'.cfg.n) hr' hm'
    refine ⟨_, .encodeOk, exec_encode_fits s' (hr'.trans hsize) (by rwa [← hcap, ← hframe]), rfl, rfl, fun _ => ?_, hrest⟩
    exact hread.trans (by rw [hn, hrec]; exact hread'.symm)

/-- Settles O24: past the tests the capacity is not looked at. -/
theorem everyLargeEnoughCapacityIsAlike : Obligations.EveryLargeEnoughCapacityIsAlike := by
  intro s c c' hc hc'
  by_cases hr : s.recIn.length = s.cfg.size
  · rw [exec_encode_fits { s with cap := c } hr hc, exec_encode_fits { s with cap := c' } hr hc']
    exact ⟨rfl, rfl⟩
  · rw [exec_encode_refused { s with cap := c } hr, exec_encode_refused { s with cap := c' } hr]

/-! ### The decoder along a frame -/

/-- How many bytes of a frame the decoder has taken in. -/
def State.taken (s : State) : Nat :=
  match s.st with
  | .start1 => 0
  | .start2 => 1
  | .length => 2
  | .payload => s.fillCount.toNat + 3

/-- The decoder is inside the frame of the record `r`, or before it, and `todo` is what it has still to take in. -/
structure State.Expects (r todo : List Byte) (s : State) : Prop where
  length : r.length = s.cfg.size
  stored : s.rxBuf.take s.fillCount.toNat = r.take s.fillCount.toNat
  todo : (frame s.cfg.n r).drop s.taken = todo

/-- Behind the header the record stands from the next byte to be stored on, and its checksum after it. -/
theorem drop_frame_payload (n : Byte) {r : List Byte} {i : Nat} (hi : i ≤ r.length) :
    (frame n r).drop (i + 3) = r.drop i ++ [checksum n r] :=
  List.drop_append_of_le_length (l₁ := [mark0, mark1, n] ++ r) (Nat.add_le_add_right hi 3)

/-- What is expected depends on the decoder alone. -/
theorem State.Expects.of_decoder {r todo : List Byte} {s t : State} (h : s.Expects r todo) (hd : t.decoder = s.decoder) :
    t.Expects r todo := by
  simp only [State.decoder, DecoderView.mk.injEq] at hd
  obtain ⟨hst, -, hfc, hrx, -, hcfg⟩ := hd
  refine ⟨?_, ?_, ?_⟩
  · rw [hcfg]; exact h.length
  · rw [hrx, hfc]; exact h.stored
  · rw [hcfg, State.taken, hst, hfc]; exact h.todo

/-- Something is still to come: the checksum closes the frame. -/
theorem State.Expects.todo_ne_nil {r todo : List Byte} {s : State} (hi : s.Inv) (h : s.Expects r todo) : todo ≠ [] := by
  have htaken : s.taken < s.cfg.size + 4 := by
    cases hs : s.st with
    | start1 | start2 | length => simp [State.taken, hs]
    | payload =>
      have := (hi.payload hs).2
      simp only [State.taken, hs]
      omega
  rw [← h.todo, Ne, List.drop_eq_nil_iff, length_frame, h.length]
  omega

/-- The decoder takes in the next byte of the frame and expects the rest, or that byte was the last and the record is out (R121, R122,
R124, R126, R127). -/
theorem dstep_expected {r todo : List Byte} {b : Byte} {s : State} (hi : s.Inv) (h : s.Expects r (b :: todo)) :
    (∃ st el fc rx, dstep b s = .next { s with st := st, expectedLength := el, fillCount := fc, rxBuf := rx } ∧
      ({ s with st := st, expectedLength := el, fillCount := fc, rxBuf := rx } : State).Expects r todo) ∨
    (todo = [] ∧ ∃ rx, dstep b s =
      .next (endFeed (.frameReady r) (returnToStart1 { s with rxBuf := rx, recordOut := r }))) := by
  obtain ⟨hlen, hst, htodo⟩ := h
  cases hs : s.st with
  | start1 =>
    rw [State.taken, hs] at htodo
    obtain ⟨rfl, rfl⟩ := List.cons.inj htodo
    exact .inl ⟨_, _, _, _, dstep_start1 _ s hs, hlen, hst, rfl⟩
  | start2 =>
    rw [State.taken, hs] at htodo
    obtain ⟨rfl, rfl⟩ := List.cons.inj htodo
    exact .inl ⟨_, _, _, _, dstep_start2 _ s hs, hlen, hst, rfl⟩
  | length =>
    rw [State.taken, hs] at htodo
    obtain ⟨rfl, rfl⟩ := List.cons.inj htodo
    exact .inl ⟨_, _, _, _, dstep_length_ok s hs, hlen, rfl, rfl⟩
  | payload =>
    have hle := (hi.payload hs).2
    have htaken : s.taken = s.fillCount.toNat + 3 := by rw [State.taken, hs]
    rw [htaken, drop_frame_payload _ (hlen ▸ hle)] at htodo
    by_cases hf : s.fillCount.toNat < s.cfg.size
    · have hin : s.fillCount.toNat < r.length := hlen ▸ hf
      rw [List.drop_eq_getElem_cons hin] at htodo
      obtain ⟨rfl, rfl⟩ := List.cons.inj htodo
      refine .inl ⟨_, _, _, _, dstep_payload_store _ s hi hs hf, hlen, ?_, ?_⟩
      · show (s.rxBuf.set _ _).take (s.fillCount + 1).toNat = r.take (s.fillCount + 1).toNat
        rw [fillCount_succ s hi hs, take_succ_set _ _ _ (fillCount_inside s hi hs), hst, List.take_append_getElem hin]
      · have htaken' : ({ s with fillCount := s.fillCount + 1 } : State).taken = s.fillCount.toNat + 1 + 3 := by
          rw [← fillCount_succ s hi hs, State.taken, hs]
        exact htaken' ▸ drop_frame_payload _ hin
    · have hfull : s.fillCount.toNat = s.cfg.size := by omega
      rw [hfull, ← hlen, List.drop_length, List.nil_append] at htodo
      obtain ⟨rfl, rfl⟩ := List.cons.inj htodo
      have hrec : s.rxBuf.take s.cfg.size = r := by rw [← hfull, hst, hfull, ← hlen, List.take_length]
      have hd := dstep_payload_complete (checksum s.cfg.n r) s hi hs hfull (by rw [hrec])
      rw [hrec] at hd
      exact .inr ⟨rfl, _, hd⟩

/-! ### The frame on its way through the source -/

theorem State.Inv.one_le_minAvail {s : State} (hi : s.Inv) : 1 ≤ s.cfg.minAvail := by
  have hwf := hi.legal
  simp only [Config.wf, Bool.and_eq_true, decide_eq_true_eq] at hwf
  exact hwf.2

/-- A FEED that may not read has taken all it can (43_decoder_ops.md R161). -/
theorem exhausted_of_not_mayRead {s : State} (hi : s.Inv) (h : mayRead s = false) : s.exhausted := by
  have hno : ¬ mayRead s = true := by simp [h]
  rw [mayRead_iff, not_and_or, Classical.not_imp, not_not, not_le] at hno
  obtain hguard | hempty := hno
  · exact .inl hguard
  · by_cases hst : s.st = .start1
    · exact .inl ⟨hst, by rw [hempty]; exact hi.one_le_minAvail⟩
    · exact .inr ⟨hst, hempty⟩

theorem news_append_needMoreData (os : List Output) : news (os ++ [.needMoreData]) = news os := by
  simp [news, Output.isNews]

theorem news_append_frameReady (os : List Output) (r : List Byte) :
    news (os ++ [.frameReady r]) = news os ++ [.frameReady r] := by
  simp [news, Output.isNews]

/-- The frame of `r` is on its way to a decoder in a quiet environment, and `rest` of it is not in the source yet. Either the decoder
expects the bytes of the source and then `rest`, and the news are those given before; or no byte is left, and the record is out. -/
structure Delivery (r : List Byte) (given : List Output) (rest : List Byte) (s : State) : Prop where
  inv : s.Inv
  quiet : s.quiet
  noDrain : s.drainLeft = none
  guard : s.cfg.minAvail ≤ s.cfg.size + 4
  progress : (s.Expects r (s.src ++ rest) ∧ news s.outputs = given) ∨
    (s.st = .start1 ∧ s.src ++ rest = [] ∧ s.recordOut = r ∧ news s.outputs = given ++ [.frameReady r])

section
variable {r rest : List Byte} {given : List Output} {s : State}

/-- A change outside the decoder that moves bytes into the source, and gives no news, keeps the delivery. -/
theorem Delivery.of_decoder {rest' : List Byte} {t : State} (h : Delivery r given rest s) (hd : t.decoder = s.decoder)
    (hb : t.dst = s.dst) (hq : t.quiet) (hdr : t.drainLeft = none) (hsrc : t.src ++ rest' = s.src ++ rest)
    (ho : news t.outputs = news s.outputs) : Delivery r given rest' t := by
  have hst : t.st = s.st := congrArg DecoderView.st hd
  have hrec : t.recordOut = s.recordOut := congrArg DecoderView.recordOut hd
  have hcfg : t.cfg = s.cfg := congrArg DecoderView.cfg hd
  refine ⟨h.inv.of_decoder hd (hb ▸ h.inv.buffer) (by simp [hdr]), hq, hdr, hcfg ▸ h.guard, ?_⟩
  rw [hsrc, ho, hst, hrec]
  exact h.progress.imp_left fun ⟨he, hn⟩ => ⟨he.of_decoder hd, hn⟩

/-- Nothing comes to the source of a quiet machine before its next step. -/
theorem Delivery.delivered (h : Delivery r given rest s) (q : List Stmt) :
    Delivery r given rest { deliver s with script := q } := by
  have hnone : s.arrivals.head = [] := h.quiet 0
  exact h.of_decoder rfl rfl (quiet_deliver h.quiet) h.noDrain (by simp [hnone]) rfl

/-- A FEED that returns for want of bytes keeps the delivery. -/
theorem Delivery.needMoreData (h : Delivery r given rest s) : Delivery r given rest (endFeed .needMoreData s) :=
  h.of_decoder (endFeed_decoder _ s) (by simp) (by simpa [State.quiet] using h.quiet) (by simp) (by simp)
    (by simp [news_append_needMoreData])

/-- FEED reads a byte of the frame: it goes on with the delivery, or that byte was the last of the frame and the record is out. -/
theorem Delivery.read_byte {b : Byte} {src : List Byte} (h : Delivery r given rest s) (hs : s.src = b :: src) :
    ∃ t, dstep b { s with feeding := true, src := src } = .next t ∧ Delivery r given rest t ∧ t.src = src ∧
      t.script = s.script ∧ (t.feeding = true ∨ t.feeding = false ∧ t.st = .start1 ∧ src = []) := by
  obtain ⟨he, hn⟩ | ⟨-, hnil, -⟩ := h.progress
  · have hi : ({ s with feeding := true, src := src } : State).Inv := h.inv.of_decoder rfl h.inv.buffer fun _ => rfl
    rw [hs, List.cons_append] at he
    obtain ⟨st, el, fc, rx, hd, he'⟩ | ⟨hnil, rx, hd⟩ := dstep_expected hi (he.of_decoder rfl)
    · exact ⟨_, hd, ⟨dstep_keeps_inv hi hd, h.quiet, h.noDrain, h.guard, .inl ⟨he', hn⟩⟩, rfl, rfl, .inl rfl⟩
    · obtain ⟨rfl, rfl⟩ := List.append_eq_nil_iff.mp hnil
      refine ⟨_, hd, ⟨dstep_keeps_inv hi hd, by simpa [State.quiet] using h.quiet, by simp, by simpa using h.guard, .inr ?_⟩,
        by simp, endFeed_script_of_none _ _ h.noDrain, .inr (by simp)⟩
      simp [news_append_frameReady, hn]
  · simp [hs] at hnil

/-- A FEED of a delivery runs to its end: it has taken all it can, and the script goes on. -/
theorem Delivery.feed (s : State) (h : Delivery r given rest s) :
    ∃ k v t, exec .feed s = .next v ∧ run k v = .next t ∧ Delivery r given rest t ∧ t.exhausted ∧ t.feeding = false ∧
      t.script = s.script := by
  obtain ⟨hno, he⟩ | ⟨b, src, hs, -, he⟩ := execFeed_cases s
  · have hx : (endFeed .needMoreData s).exhausted := by
      simpa [State.exhausted] using exhausted_of_not_mayRead h.inv hno
    exact ⟨0, _, _, he, rfl, h.needMoreData, hx, by simp, by simp⟩
  · obtain ⟨v, hd, hv, hsrc, hq, hf | ⟨hf, hst, hnil⟩⟩ := h.read_byte hs
    · obtain ⟨k, w, t, hw, hrun, ht, hx, hft, hqt⟩ := Delivery.feed (deliver v) (hv.delivered v.script)
      have hstep : step v = .next w := (step_feeding v hf).trans hw
      exact ⟨k + 1, v, t, he.trans hd, (run_succ_of_next k hstep).trans hrun, ht, hx, hft, hqt.trans hq⟩
    · have hx : v.exhausted := by
        refine .inl ⟨hst, ?_⟩
        rw [hsrc, hnil]
        exact hv.inv.one_le_minAvail
      exact ⟨0, v, v, he.trans hd, rfl, hv, hx, hf, hq⟩
termination_by s.src.length
decreasing_by
  have hnone : v.arrivals.head = [] := hv.quiet 0
  simp [hnone, hsrc, hs]

/-- The rest of a frame arrives chunk by chunk, with a FEED after each: the script runs to its end. -/
theorem Delivery.chunks (chunks : List (List Byte)) (s : State) (h : Delivery r given chunks.flatten s) (hx : s.exhausted)
    (hf : s.feeding = false) (hq : s.script = chunks.flatMap fun c => [.push c, feedStmt]) :
    ∃ k t, run k s = .next t ∧ Delivery r given [] t ∧ t.exhausted ∧ t.feeding = false ∧ t.script = [] := by
  induction chunks generalizing s with
  | nil => exact ⟨0, s, rfl, h, hx, hf, hq⟩
  | cons c cs ih =>
    let q : List Stmt := cs.flatMap fun c => [.push c, feedStmt]
    let u : State := srcAppend c { deliver s with script := feedStmt :: q }
    have hpush : step s = .next u := step_issue s (.push c) (feedStmt :: q) hf hq
    have hu : Delivery r given cs.flatten u := by
      have hs := h.delivered (feedStmt :: q)
      exact hs.of_decoder rfl rfl hs.quiet hs.noDrain (by simp [u]) rfl
    obtain ⟨k, v, t, hv, hrun, ht, htx, htf, htq⟩ := Delivery.feed _ (hu.delivered q)
    have hfeed : step u = .next v := (step_issue u feedStmt q hf rfl).trans hv
    obtain ⟨j, w, hw, hres⟩ := ih t ht htx htf htq
    refine ⟨k + j + 1 + 1, w, ?_, hres⟩
    rw [run_succ_of_next _ hpush, run_succ_of_next _ hfeed, run_add j hrun, hw]

/-- With the whole frame delivered a decoder that has taken all it can has finished it. -/
theorem Delivery.finished (h : Delivery r given [] s) (hx : s.exhausted) :
    s.src = [] ∧ s.recordOut = r ∧ news s.outputs = given ++ [.frameReady r] := by
  obtain ⟨he, -⟩ | ⟨-, hsrc, hrec, hn⟩ := h.progress
  · rw [List.append_nil] at he
    obtain ⟨hst, hlt⟩ | ⟨-, hnil⟩ := hx
    · have hlen : s.src.length = s.cfg.size + 4 := by
        rw [← he.todo, State.taken, hst, List.drop_zero, length_frame, he.length]
      have := h.guard
      omega
    · exact absurd hnil (he.todo_ne_nil h.inv)
  · exact ⟨by simpa using hsrc, hrec, hn⟩

end

/-- Settles O53: the frame that ENCODE writes is delivered chunk by chunk, and every FEED takes all it can of it. -/
theorem roundTrip : Obligations.RoundTrip := by
  intro s e r chunks hi hf hst hsrc hquiet hguard hrec hr hc he hflat
  subst hrec
  rw [exec_encode_fits s hr hc] at he
  cases he
  obtain ⟨hread, -⟩ := Memory.read_frame_written (n := s.cfg.n) hr hi.buffer
  have hbytes : chunks.flatten = frame s.cfg.n s.recIn := hflat.trans hread
  obtain ⟨-, hfill⟩ := hi.header (by simp [hst])
  have hnoDrain : s.drainLeft = none := by
    by_contra hd
    simp [hi.drain hd] at hf
  let u : State :=
    { respond .encodeOk { s with dst := Memory.writeBytes s.dst 0 (frame s.cfg.n s.recIn) } with
      script := chunks.flatMap fun c => [.push c, feedStmt] }
  have hexp : s.Expects s.recIn (s.src ++ chunks.flatten) := by
    refine ⟨hr, by simp [hfill], ?_⟩
    rw [State.taken, hst, hsrc, hbytes]
    rfl
  have hdel : Delivery s.recIn (news s.outputs ++ [.encodeOk]) chunks.flatten u :=
    ⟨hi.of_decoder rfl (Memory.wf_writeBytes _ _ 0 hi.buffer) hi.drain, hquiet, hnoDrain, hguard,
      .inl ⟨hexp.of_decoder rfl, by simp [u, news, Output.isNews]⟩⟩
  have hx : u.exhausted := by
    refine .inl ⟨hst, ?_⟩
    show s.src.length < s.cfg.minAvail
    rw [hsrc]
    exact hi.one_le_minAvail
  obtain ⟨k, t, hrun, ht, htx, htf, htq⟩ := hdel.chunks chunks u hx hf rfl
  obtain ⟨htsrc, htrec, htnews⟩ := ht.finished htx
  exact ⟨k, t, hrun, htq, htf, htrec, htsrc, by simpa using htnews⟩

end Sys2Proof.Machine

/-! PROOFS. The transitions of the frame decoder (42_decoder_fsm.md): which one a byte selects in each of the four states, what it does, and
what it leaves unchanged. -/

namespace Sys2Proof

/-! ### What a key decodes to, by its state -/

theorem decodeKey_start1 (c : KeyContext) (b : Byte) :
    decodeKey c (makeKey .start1 b) = if b = mark0 then .s1Match else .s1Skip b := by
  rw [decodeKey, decodeTransition_makeKey, keyByte_makeKey]
  dsimp only
  split_ifs <;> rfl

theorem decodeKey_start2 (c : KeyContext) (b : Byte) :
    decodeKey c (makeKey .start2 b) =
      if b = mark1 then .s2Match else if b = mark0 ∧ c.retest = true then .s2Retest else .s2Fail b := by
  rw [decodeKey, decodeTransition_makeKey, keyByte_makeKey]
  dsimp only
  split_ifs <;> rfl

theorem decodeKey_length (c : KeyContext) (b : Byte) :
    decodeKey c (makeKey .length b) = if b = c.n then .lenOk b else .lenBad b := by
  rw [decodeKey, decodeTransition_makeKey, keyByte_makeKey]
  dsimp only
  split_ifs <;> rfl

/-- The record size of a legal configuration is not 0 (00_scope.md R6). -/
theorem Config.n_ne_zero {c : Config} (h : c.wf = true) : c.n ≠ 0 := by
  simp only [Config.wf, Bool.and_eq_true, bne_iff_ne] at h
  exact h.1

end Sys2Proof

namespace Sys2Proof.Machine

/-! ### The header states -/

/-- Settles O25, by the decoder's test of the byte and the state it names next. -/
theorem awaitingStart1 : Obligations.AwaitingStart1 :=
  ⟨decodeKey_start1, fun _ => rfl, fun _ _ => rfl, dstep_start1⟩

/-- Settles O26, by the decoder's two tests of the byte and the state each branch names next. -/
theorem awaitingStart2 : Obligations.AwaitingStart2 :=
  ⟨decodeKey_start2, fun _ => rfl, fun _ => rfl, fun _ _ => rfl, dstep_start2⟩

/-- Settles O27: the decoder compares the byte with `N`, and a legal `N` is not 0. -/
theorem lengthAccepted : Obligations.LengthAccepted := by
  refine ⟨fun c b => ?_, fun _ _ => rfl, fun s hwf hst => ⟨dstep_length_ok s hst, Config.n_ne_zero hwf⟩⟩
  rw [decodeKey_length]
  split_ifs with hb <;> simp [hb]

/-- Settles O28: a byte other than `N` takes the other branch, whose writes to the counters are undone. -/
theorem lengthRejected : Obligations.LengthRejected := by
  refine ⟨fun c b => ?_, fun _ _ => rfl, dstep_length_bad, fun s hwf => Config.n_ne_zero hwf⟩
  rw [decodeKey_length]
  split_ifs with hb <;> simp [hb]

/-! ### AWAITING_PAYLOAD -/

/-- Settles O29: by the number of stored bytes and the checksum, `DSTEP` and the selected row's instruction have one answer. -/
theorem awaitingPayload : Obligations.AwaitingPayload := by
  intro s b hi hp
  have hin := fillCount_inside s hi hp
  have hle := (hi.payload hp).2
  split_ifs with hf hc
  · have he := exec_payStore_inside b s hin
    exact ⟨(dstep_payload_store b s hi hp hf).trans he.symm, he, fillCount_succ s hi hp⟩
  · have hfull : s.fillCount.toNat = s.cfg.size := by omega
    have he := exec_payCsOk_inside b s hin hi.outLength (by rw [hi.rxLength]; omega)
    rw [hfull, take_set_at_end] at he
    exact ⟨(dstep_payload_complete b s hi hp hfull hc).trans he.symm, he⟩
  · have hfull : s.fillCount.toNat = s.cfg.size := by omega
    have he := exec_payCsBad_inside b s hin
    rw [hfull] at he
    exact ⟨(dstep_payload_reject b s hi hp hfull hc).trans he.symm, he⟩

/-- In AWAITING_PAYLOAD a byte is stored and the state stays, or it is stored as the `N + 1`-th and the frame ends. -/
theorem dstep_payload_cases (b : Byte) (s : State) (hi : s.Inv) (hp : s.st = .payload) :
    (s.fillCount.toNat < s.cfg.size ∧
      dstep b s = .next { s with rxBuf := s.rxBuf.set s.fillCount.toNat b, fillCount := s.fillCount + 1 }) ∨
    (s.fillCount.toNat = s.cfg.size ∧ ∃ o out,
      dstep b s = .next (endFeed o (returnToStart1 { s with rxBuf := s.rxBuf.set s.cfg.size b, recordOut := out }))) := by
  have hle := (hi.payload hp).2
  obtain hf | hfull := hle.lt_or_eq
  · exact .inl ⟨hf, dstep_payload_store b s hi hp hf⟩
  · refine .inr ⟨hfull, ?_⟩
    by_cases hc : checksum s.cfg.n (s.rxBuf.take s.cfg.size) = b
    · exact ⟨_, _, dstep_payload_complete b s hi hp hfull hc⟩
    · exact ⟨_, s.recordOut, dstep_payload_reject b s hi hp hfull hc⟩

/-- Settles O33: whether the byte is stored inside the frame or ends it is decided by the bytes stored before it alone. -/
theorem noMarkerScanningInsideAFrame : Obligations.NoMarkerScanningInsideAFrame := by
  intro s b hi hp
  have hin := fillCount_inside s hi hp
  obtain ⟨hf, hd⟩ | ⟨hfull, o, out, hd⟩ := dstep_payload_cases b s hi hp
  · exact ⟨_, hd, rfl, hin, fun _ => ⟨hp, fillCount_succ s hi hp⟩, fun hfull => absurd hfull hf.ne⟩
  · exact ⟨_, hd, by simp [hfull], hin, fun hf => absurd hfull hf.ne, fun _ => by simp⟩

/-! ### All transitions -/

/-- No byte makes the decoder stop where the invariants hold. -/
theorem dstep_completes (b : Byte) (s : State) (hi : s.Inv) : ∃ t, dstep b s = .next t := by
  cases hst : s.st with
  | start1 => exact ⟨_, dstep_start1 b s hst⟩
  | start2 => exact ⟨_, dstep_start2 b s hst⟩
  | length =>
    by_cases hb : b = s.cfg.n
    · exact ⟨_, hb ▸ dstep_length_ok s hst⟩
    · exact ⟨_, dstep_length_bad b s hst hb⟩
  | payload =>
    obtain ⟨-, hd⟩ | ⟨-, o, out, hd⟩ := dstep_payload_cases b s hi hst
    · exact ⟨_, hd⟩
    · exact ⟨_, hd⟩

/-- Settles O35: one row selects the key of the state and the byte, and its transition completes and keeps the invariants. -/
theorem transitionsAreTotal : Obligations.TransitionsAreTotal := by
  intro s b hi
  obtain ⟨t, ht⟩ := dstep_completes b s hi
  have hit : t.Inv := dstep_keeps_inv hi ht
  exact ⟨transitionOf b s, everyKeySelectsExactlyOneRow _ _, t, (exec_instr _ b s).trans ht, ht, hit.header, hit.payload⟩

/-- The script after a transition that ends a frame, with the rest of a DRAIN put back (30_encoding.md R82). -/
theorem endFeed_script_drain (o : Output) (s : State) :
    (endFeed o s).script = s.script ∨ ∃ k, s.drainLeft = some k ∧ (endFeed o s).script = .drain k :: s.script :=
  (endFeed_script o s).imp_right fun ⟨k, hk, _, hs⟩ => ⟨k, hk, hs⟩

/-- Settles O36, by everything a transition can answer. -/
theorem transitionFrame : Obligations.TransitionFrame := by
  intro tr s t b h
  rw [exec_instr] at h
  have hset : ∀ i, i ≠ s.fillCount.toNat → (s.rxBuf.set s.fillCount.toNat b)[i]? = s.rxBuf[i]? :=
    fun i hne => List.getElem?_set_ne hne.symm
  obtain ⟨st, el, fc, rfl⟩ | ⟨rfl, rfl⟩ | ⟨rfl, -, rfl⟩ | ⟨rfl, -, rfl⟩ | ⟨rfl, -, r, rfl⟩ := runTransition_next tr b s t h
  · simp
  · simpa using endFeed_script_drain .sizeMismatch (returnToStart1 { s with expectedLength := b })
  · simpa using hset
  · simpa using ⟨endFeed_script_drain .checksumMismatch
      (returnToStart1 { s with rxBuf := s.rxBuf.set s.fillCount.toNat b, fillCount := s.fillCount + 1 }), hset⟩
  · simpa using ⟨endFeed_script_drain (.frameReady (r.take s.cfg.size)) (returnToStart1
      { s with rxBuf := s.rxBuf.set s.fillCount.toNat b, fillCount := s.fillCount + 1, recordOut := r }), hset⟩

/-! ### The end of a frame (42_decoder_fsm.md R130) -/

/-- A frame that the checksum byte completes ends by the return to AWAITING_START1. -/
theorem exec_payCsOk_returns {b : Byte} {s t : State} (h : exec (.payCsOk b) s = .next t) :
    ∃ o u, t = endFeed o (returnToStart1 u) ∧ u.src = s.src := by
  simp only [exec, execPayCsOk] at h
  obtain ⟨-, hs⟩ | ⟨-, hs⟩ := storeByte_cases b s <;> rw [hs] at h
  · cases h
  · dsimp only at h
    split at h
    · cases h
    · rename_i u hu
      obtain ⟨r, rfl⟩ := copyRecord_ok _ _ hu
      cases h
      exact ⟨_, _, rfl, rfl⟩

/-- A frame that the checksum byte rejects ends by the return to AWAITING_START1. -/
theorem exec_payCsBad_returns {b : Byte} {s t : State} (h : exec (.payCsBad b) s = .next t) :
    ∃ o u, t = endFeed o (returnToStart1 u) ∧ u.src = s.src := by
  obtain hin | hout := Nat.lt_or_ge s.fillCount.toNat s.rxBuf.length
  · rw [exec_payCsBad_inside b s hin] at h
    cases h
    exact ⟨_, _, rfl, rfl⟩
  · obtain ⟨-, -, hstop⟩ := payload_outside_stops b s hout
    rw [hstop] at h
    cases h

/-- Settles O34: each of the three ends a FEED after the return to AWAITING_START1, which clears both counters. -/
theorem returnToAwaitingStart1 : Obligations.ReturnToAwaitingStart1 := by
  intro s t b h
  have hret : ∃ o u, t = endFeed o (returnToStart1 u) ∧ u.src = s.src := by
    obtain h | h | h := h
    · cases h
      exact ⟨.sizeMismatch, { s with expectedLength := b }, rfl, rfl⟩
    · exact exec_payCsOk_returns h
    · exact exec_payCsBad_returns h
  obtain ⟨o, u, rfl, hsrc⟩ := hret
  exact ⟨by simp, by simp, by simp, by simpa using hsrc⟩

end Sys2Proof.Machine

/-! PROOFS. The decoder's operations (43_decoder_ops.md): what one micro-step of FEED does, when a FEED returns, and that a run of FEEDs
is `DSTEP` over the bytes it consumes, from which its results on whole frames, broken frames and junk follow. -/

namespace Sys2Proof.Machine

/-! ### RESET and the end of FEED -/

/-- Settles O15: the word decodes to RESET, whose meaning names the three registers and the result. -/
theorem resetReturnsToTheInitialState : Obligations.ResetReturnsToTheInitialState := ⟨rfl, fun _ => rfl⟩

/-- Settles O32: without a DRAIN, or with one whose rest comes next unless the result is `NeedMoreData`. -/
theorem endOfFeed : Obligations.EndOfFeed := by
  intro o s
  unfold endFeed
  cases s.drainLeft with
  | none => rfl
  | some k =>
    by_cases ho : o = .needMoreData
    · simp only [if_pos ho]
      rfl
    · simp only [if_neg ho]
      rfl

/-! ### One micro-step of FEED -/

/-- The instruction that the key of the state and the byte decodes to means what the byte's transition does. -/
theorem exec_decodeKey (b : Byte) (s u : State) :
    exec (decodeKey (keyContext b s) (makeKey s.st b)) u = runTransition (transitionOf b s) b u := by
  rw [decodeKey, keyByte_makeKey, exec_instr]
  rfl

/-- FEED returns exactly where it has taken all it can (43_decoder_ops.md R151, R152). -/
theorem not_mayRead_iff {s : State} (hwf : s.cfg.wf = true) : mayRead s = false ↔ s.exhausted := by
  have hmin : 1 ≤ s.cfg.minAvail := by
    simp only [Config.wf, Bool.and_eq_true, decide_eq_true_eq] at hwf
    exact hwf.2
  rw [← Bool.not_eq_true, mayRead_iff, not_and_or, Classical.not_imp, not_not, not_le, State.exhausted]
  constructor
  · rintro (hguard | hempty)
    · exact .inl hguard
    · by_cases hst : s.st = .start1
      · exact .inl ⟨hst, by rw [hempty]; exact hmin⟩
      · exact .inr ⟨hst, hempty⟩
  · exact Or.imp_right And.right

theorem exec_feed_returns {s : State} (h : mayRead s = false) : exec .feed s = .next (endFeed .needMoreData s) := by
  obtain ⟨-, he⟩ | ⟨b, rest, -, hm, -⟩ := execFeed_cases s
  · exact he
  · simp [h] at hm

theorem exec_feed_reads {b : Byte} {rest : List Byte} {s : State} (h : mayRead s = true) (hs : s.src = b :: rest) :
    exec .feed s = dstep b { s with feeding := true, src := rest } := by
  obtain ⟨hm, -⟩ | ⟨b', rest', hs', -, he⟩ := execFeed_cases s
  · simp [h] at hm
  · obtain ⟨rfl, rfl⟩ := List.cons.inj (hs.symm.trans hs')
    exact he

/-- Settles O37: below the guard FEED has taken all it can, and from the guard on a byte is there. -/
theorem feedGuardInAwaitingStart1 : Obligations.FeedGuardInAwaitingStart1 := by
  intro s hwf hst
  split_ifs with hlt
  · exact exec_feed_returns ((not_mayRead_iff hwf).mpr (.inl ⟨hst, hlt⟩))
  · obtain ⟨hno, -⟩ | ⟨b, rest, hs, -, he⟩ := execFeed_cases s
    · obtain ⟨-, hlt'⟩ | ⟨hne, -⟩ := (not_mayRead_iff hwf).mp hno
      · exact absurd hlt' hlt
      · exact absurd hst hne
    · exact ⟨b, rest, hs, he⟩

/-- Settles O38: outside AWAITING_START1 the source alone decides. -/
theorem feedEmptySourceCheck : Obligations.FeedEmptySourceCheck := by
  intro s hst
  refine ⟨fun hs => ⟨exec_feed_returns ?_, by simp, by simp, by simp, by simp⟩, fun b rest hs => exec_feed_reads ?_ hs⟩
  · rw [← Bool.not_eq_true, mayRead_iff]
    simp [hs]
  · rw [mayRead_iff]
    simp [hst, hs]

/-- What is left of the source when FEED has taken a byte keeps the invariants. -/
theorem State.Inv.reading {s : State} (hi : ({ s with feeding := true } : State).Inv) (rest : List Byte) :
    ({ s with feeding := true, src := rest } : State).Inv :=
  hi.of_decoder rfl hi.buffer fun _ => rfl

/-- A FEED just issued, by its word or by a DRAIN, and one in progress complete their next micro-step. -/
theorem exec_feed_completes {s : State} (hi : ({ s with feeding := true } : State).Inv) : ∃ t, exec .feed s = .next t := by
  obtain ⟨-, he⟩ | ⟨b, rest, -, -, he⟩ := execFeed_cases s
  · exact ⟨_, he⟩
  · obtain ⟨t, ht⟩ := dstep_completes b _ (hi.reading rest)
    exact ⟨t, he.trans ht⟩

/-- Settles O39: where FEED may read, its micro-step is the transition of the oldest byte's key. -/
theorem feedMicroStepCompletes : Obligations.FeedMicroStepCompletes := by
  intro s hi
  obtain ⟨t, ht⟩ := exec_feed_completes (s := s) (hi.of_decoder rfl hi.buffer fun _ => rfl)
  refine ⟨t, ht, ?_⟩
  obtain ⟨hno, he⟩ | ⟨b, rest, hs, hm, he⟩ := execFeed_cases s <;> rw [ht] at he
  · exact .inl ⟨hno, Host.Outcome.next.inj he⟩
  · exact .inr ⟨hm, b, rest, hs, (exec_decodeKey b s _).trans he.symm⟩

/-- What `DSTEP` does to the machine: it goes on with changes to the decoder alone, or it ends FEED with news in AWAITING_START1. -/
theorem dstep_goes_on_or_ends {b : Byte} {s t : State} (h : dstep b s = .next t) :
    (∃ st el fc rx, t = { s with st := st, expectedLength := el, fillCount := fc, rxBuf := rx }) ∨
      ∃ o rx out, o.isNews = true ∧ t = endFeed o (returnToStart1 { s with rxBuf := rx, recordOut := out }) := by
  obtain ⟨st, el, fc, rfl⟩ | ⟨-, rfl⟩ | ⟨-, -, rfl⟩ | ⟨-, -, rfl⟩ | ⟨-, -, r, rfl⟩ := runTransition_next _ b s t h
  · exact .inl ⟨st, el, fc, s.rxBuf, rfl⟩
  · exact .inr ⟨.sizeMismatch, s.rxBuf, s.recordOut, rfl, rfl⟩
  · exact .inl ⟨s.st, s.expectedLength, _, _, rfl⟩
  · exact .inr ⟨.checksumMismatch, _, s.recordOut, rfl, rfl⟩
  · exact .inr ⟨.frameReady _, _, r, rfl, rfl⟩

/-- Where FEED's micro-step gives `NeedMoreData` it has not read. -/
theorem exec_feed_needMoreData {s t : State} (h : exec .feed s = .next t) (ho : t.outputs = s.outputs ++ [.needMoreData]) :
    mayRead s = false ∧ t = endFeed .needMoreData s := by
  obtain ⟨hno, he⟩ | ⟨b, rest, -, -, he⟩ := execFeed_cases s <;> rw [he] at h
  · exact ⟨hno, (Host.Outcome.next.inj h).symm⟩
  · obtain ⟨st, el, fc, rx, rfl⟩ | ⟨o, rx, out, hnews, rfl⟩ := dstep_goes_on_or_ends h
    · simp at ho
    · have hnmd : o = .needMoreData := by simpa using ho
      simp [hnmd, Output.isNews] at hnews

/-- Settles O40: such a micro-step only ends FEED. -/
theorem needMoreDataChangesNothing : Obligations.NeedMoreDataChangesNothing := by
  intro s t h ho
  obtain ⟨-, rfl⟩ := exec_feed_needMoreData h ho
  exact ⟨endFeed_decoder _ s, by simp, by simp, by simp, by simp, by simp, by simp⟩

/-- Settles O41: such a micro-step stands where FEED has taken all it can. -/
theorem whatIsLeftAtNeedMoreData : Obligations.WhatIsLeftAtNeedMoreData := by
  intro s t hwf h ho
  obtain ⟨hno, rfl⟩ := exec_feed_needMoreData h ho
  rw [endFeed_st, endFeed_src, endFeed_cfg]
  obtain ⟨hst, hlt⟩ | ⟨hst, hnil⟩ := (not_mayRead_iff hwf).mp hno
  · exact ⟨fun _ => hlt, fun hne => absurd hst hne⟩
  · exact ⟨fun heq => absurd heq hst, fun _ => hnil⟩

/-! ### One step -/

/-- Settles O8: a step issues the next statement, or it is one pass of FEED's loop body. -/
theorem stepRunsTheDecodedInstruction : Obligations.StepRunsTheDecodedInstruction := by
  refine ⟨fun s w o rest hf hq => step_issue s _ rest hf hq, fun s b rest hf hm hs => ?_, fun s hf _ => step_feeding s hf,
    step_feeding, fun _ => rfl⟩
  have hsame : ({ deliver s with feeding := true, src := rest } : State) = { deliver s with src := rest } := by
    rw [← hf]
    rfl
  calc step s
      _ = dstep b { deliver s with feeding := true, src := rest } := (step_feeding s hf).trans (exec_feed_reads hm hs)
      _ = dstep b { deliver s with src := rest } := by rw [hsame]
      _ = exec (decodeKey (keyContext b (deliver s)) (makeKey s.st b)) { deliver s with src := rest } :=
        (exec_decodeKey b (deliver s) _).symm

/-- Settles O11: a micro-step of FEED gives a result only as it ends FEED; of the rest, RESET and ENCODE alone answer, and they run while
no FEED does. -/
theorem atMostOneResultAStep : Obligations.AtMostOneResultAStep := by
  intro s t h
  have hfeed : ∀ u : State, u.outputs = s.outputs → exec .feed u = .next t →
      t.outputs = s.outputs ∨ ((∃ o, t.outputs = s.outputs ++ [o]) ∧ t.feeding = false) := by
    intro u hu he
    obtain ⟨-, -, -, ho⟩ | ⟨o, v, rfl, -, -, ho⟩ := execFeed_goes_on_or_ends he
    · exact .inl (ho.trans hu)
    · exact .inr ⟨⟨o, by simp [ho, hu]⟩, by simp⟩
  cases hf : s.feeding with
  | true => exact hfeed (deliver s) rfl ((step_feeding s hf).symm.trans h)
  | false =>
    obtain ⟨u, hp, hu⟩ | ⟨u, hp, -, rfl | hu | hu⟩ | ⟨-, c, src, u, -, hp, rfl⟩ := step_next_cases h
    · exact hfeed u hp.outputs hu
    · exact .inl hp.outputs
    · cases hu
      exact .inr ⟨⟨.resetDone, congrArg (· ++ [_]) hp.outputs⟩, hp.feeding.trans hf⟩
    · obtain ⟨m, o, rfl, -⟩ := execEncode_frame hu
      exact .inr ⟨⟨o, congrArg (· ++ [o]) hp.outputs⟩, hp.feeding.trans hf⟩
    · exact .inl hp.outputs

end Sys2Proof.Machine

namespace Sys2Proof.Machine

/-! ### Headers are read to their end within one FEED (43_decoder_ops.md R167) -/

/-- AWAITING_START2 is entered from AWAITING_START1 and AWAITING_LENGTH from AWAITING_START2, where no byte is tested again; and neither
ends a FEED. -/
theorem dstep_into_header {b : Byte} {s t : State} (hi : s.Inv) (hr : s.cfg.retest = false) (h : dstep b s = .next t) :
    (t.st = .start2 → s.st = .start1 ∧ t.feeding = s.feeding) ∧ (t.st = .length → s.st = .start2 ∧ t.feeding = s.feeding) := by
  cases hst : s.st with
  | start1 =>
    rw [dstep_start1 b s hst] at h
    cases h
    exact ⟨fun _ => ⟨rfl, rfl⟩, by dsimp only; split_ifs <;> simp⟩
  | start2 =>
    rw [dstep_start2 b s hst] at h
    cases h
    exact ⟨by dsimp only; split_ifs <;> simp_all, fun _ => ⟨rfl, rfl⟩⟩
  | length =>
    by_cases hb : b = s.cfg.n
    · rw [hb, dstep_length_ok s hst] at h
      cases h
      exact ⟨nofun, nofun⟩
    · rw [dstep_length_bad b s hst hb] at h
      cases h
      simp
  | payload =>
    obtain ⟨-, hd⟩ | ⟨-, o, out, hd⟩ := dstep_payload_cases b s hi hst <;> rw [hd] at h <;> cases h
    · simp [hst]
    · simp

/-- The bytes that a header once begun still needs are in the source. -/
def State.HeaderInSource (s : State) : Prop :=
  s.cfg.retest = false → 3 ≤ s.cfg.minAvail → (s.st = .start2 → 2 ≤ s.src.length) ∧ (s.st = .length → 1 ≤ s.src.length)

/-- A micro-step of FEED keeps a header begun and the bytes it needs together: the guard has let FEED begin it only with all three bytes
there. -/
theorem exec_feed_headerUnbroken {s t : State} (hi : ({ s with feeding := true } : State).Inv) (hs : s.HeaderInSource)
    (h : exec .feed s = .next t) : t.HeaderUnbroken := by
  obtain ⟨-, -, -, hcfg, -⟩ := execFeed_frame h
  have hmay := mayRead_iff s
  obtain ⟨hno, he⟩ | ⟨b, rest, hsrc, hm, he⟩ := execFeed_cases s <;> rw [he] at h
  · cases h
    have hempty : s.st ≠ .start1 → s.src.length = 0 := fun hne => by simpa [hno, hne] using hmay
    constructor <;> rw [hcfg, endFeed_st] <;> intro hr hg hst <;> obtain ⟨h2, h3⟩ := hs hr hg
    · have := hempty (by simp [hst])
      have := h2 hst
      omega
    · have := hempty (by simp [hst])
      have := h3 hst
      omega
  · have htsrc : t.src = rest := runTransition_src h
    have hlen : s.src.length = rest.length + 1 := by rw [hsrc, List.length_cons]
    constructor <;> rw [hcfg, htsrc] <;> intro hr hg hst <;> obtain ⟨h2, h3⟩ := dstep_into_header (hi.reading rest) hr h
    · obtain ⟨hst1, hf⟩ := h2 hst
      have := (hmay.mp hm).1 hst1
      exact ⟨hf, by omega⟩
    · obtain ⟨hst2, hf⟩ := h3 hst
      have := (hs hr hg).1 hst2
      exact ⟨hf, by omega⟩

/-- A step that runs no FEED keeps the decoder's state and the configuration, or leads to AWAITING_START1. -/
theorem exec_statement_st {s u t : State} (hp : s.Prepared u) (h : t = u ∨ exec .reset u = .next t ∨ exec .encode u = .next t) :
    t.cfg = s.cfg ∧ (t.st = s.st ∨ t.st = .start1) := by
  have hst : u.st = s.st := congrArg DecoderView.st hp.decoder
  obtain rfl | h | h := h
  · exact ⟨hp.cfg, .inl hst⟩
  · cases h
    exact ⟨hp.cfg, .inr rfl⟩
  · obtain ⟨m, o, rfl, -⟩ := execEncode_frame h
    exact ⟨hp.cfg, .inl hst⟩

/-- Settles O50: a FEED in progress has its header's bytes in the source, and while none is in progress no header is begun. -/
theorem headersAreNeverStranded : Obligations.HeadersAreNeverStranded := by
  intro s t hi hs h
  cases hf : s.feeding with
  | true =>
    rw [step_feeding s hf] at h
    refine exec_feed_headerUnbroken (s := deliver s) (hi.prepared_feeding ⟨rfl, rfl, rfl, id⟩)
      (fun hr hg => ⟨fun hst => ?_, fun hst => ?_⟩) h
    · have := (hs.second hr hg hst).2
      simp
      omega
    · have := (hs.third hr hg hst).2
      simp
      omega
  | false =>
    have h2 : s.cfg.retest = false → 3 ≤ s.cfg.minAvail → s.st ≠ .start2 := fun hr hg hst => by simp [hs.second hr hg hst] at hf
    have h3 : s.cfg.retest = false → 3 ≤ s.cfg.minAvail → s.st ≠ .length := fun hr hg hst => by simp [hs.third hr hg hst] at hf
    obtain ⟨u, hp, hu⟩ | ⟨u, hp, -, hu⟩ | ⟨-, c, src, u, -, -, rfl⟩ := step_next_cases h
    · have hst : u.st = s.st := congrArg DecoderView.st hp.decoder
      refine exec_feed_headerUnbroken (hi.prepared_feeding hp) ?_ hu
      rw [State.HeaderInSource, hp.cfg, hst]
      exact fun hr hg => ⟨fun h => absurd h (h2 hr hg), fun h => absurd h (h3 hr hg)⟩
    · obtain ⟨hcfg, hst⟩ := exec_statement_st hp hu
      constructor <;> rw [hcfg] <;> intro hr hg ht
      · simp [ht, (h2 hr hg).symm] at hst
      · simp [ht, (h3 hr hg).symm] at hst
    · exact ⟨fun _ _ hst => by simp at hst, fun _ _ hst => by simp at hst⟩

/-- A state between two FEEDs with no header begun: of the four decoder states two are left. -/
theorem State.HeaderUnbroken.not_feeding {s : State} (hs : s.HeaderUnbroken) (hr : s.cfg.retest = false) (hg : 3 ≤ s.cfg.minAvail)
    (hf : s.feeding = false) : s.st = .start1 ∨ s.st = .payload := by
  cases hst : s.st with
  | start1 => exact .inl rfl
  | start2 => simp [hs.second hr hg hst] at hf
  | length => simp [hs.third hr hg hst] at hf
  | payload => exact .inr rfl

/-- A codec with a chosen guard and re-test option, to be fed `src` by one FEED. -/
def fedOnce (minAvail : Nat) (retest : Bool) (src : List Byte) : State :=
  { State.reset with cfg := { n := 4, minAvail := minAvail, retest := retest }, src := src, script := [feedStmt] }

theorem fedOnce_inv {minAvail : Nat} {retest : Bool} (src : List Byte) (h : 1 ≤ minAvail) : (fedOnce minAvail retest src).Inv :=
  ⟨by simp [fedOnce, Config.wf, h], fun _ => ⟨rfl, rfl⟩, nofun, rfl, rfl, rfl, fun h => absurd rfl h⟩

theorem fedOnce_headerUnbroken (minAvail : Nat) (retest : Bool) (src : List Byte) : (fedOnce minAvail retest src).HeaderUnbroken :=
  ⟨nofun, nofun⟩

/-- Settles O51: a step leaves no header begun unless a FEED is in progress, and one that gives a result leaves none in progress; with the
option on, or with the guard at 1, a FEED stops inside a header. -/
theorem whereFeedCanStop : Obligations.WhereFeedCanStop := by
  refine ⟨fun s t hi hs hr hg h ho => ?_, ?_, ?_⟩
  · have ht := headersAreNeverStranded s t hi hs h
    have hf : t.feeding = false := by
      obtain hsame | ⟨-, hf⟩ := atMostOneResultAStep s t h
      · simp [ho] at hsame
      · exact hf
    by_cases hc : s.atConfig
    · obtain ⟨hidle, n, k, r, src, rest, hq⟩ := hc
      rw [step_issue s _ _ hidle hq] at h
      obtain ⟨e, hrun⟩ | ⟨c, -, hrun⟩ := runConfig_cases n k r src { deliver s with script := rest }
      · cases hrun.symm.trans h
      · cases hrun.symm.trans h
        exact .inl rfl
    · have hcfg := configurationIsReadOnly s t hc h
      exact ht.not_feeding (hcfg ▸ hr) (hcfg ▸ hg) hf
  · exact ⟨fedOnce 3 true [0x06, 0x06, 0x06], _, 4, fedOnce_inv _ (by decide), fedOnce_headerUnbroken _ _ _, rfl, rfl, rfl, rfl, rfl,
      rfl, rfl⟩
  · exact ⟨fedOnce 1 false [0x06, 0x85], _, 3, fedOnce_inv _ (by decide), fedOnce_headerUnbroken _ _ _, by decide, rfl, rfl, rfl, rfl,
      rfl⟩

end Sys2Proof.Machine

namespace Sys2Proof.Machine

/-! ### When a FEED returns (43_decoder_ops.md R158) -/

/-- Where the next micro-step is FEED's, a step of the open machine is that micro-step, after the append. -/
theorem stepWith_atFeed (g : List Byte) {s : State} (h : s.atFeed) :
    ∃ u, s.Prepared u ∧ u.src = s.src ++ g ∧ stepWith g s = exec .feed u := by
  obtain ⟨-, he⟩ | ⟨hf, hq, -⟩ | ⟨hf, q, rest, hq, he⟩ := stepWith_cases g s
  · exact ⟨srcAppend g s, ⟨rfl, rfl, rfl, id⟩, rfl, he⟩
  · obtain hf' | ⟨rest, ⟨o, hq'⟩ | ⟨k, hq'⟩⟩ := h
    · simp [hf] at hf'
    · simp [hq] at hq'
    · simp [hq] at hq'
  · obtain hf' | ⟨rest', ⟨o, hq'⟩ | ⟨k, hq'⟩⟩ := h
    · simp [hf] at hf'
    · obtain ⟨rfl, rfl⟩ := List.cons.inj (hq.symm.trans hq')
      exact ⟨lendAny o { srcAppend g s with script := rest },
        ⟨lendAny_decoder o _, lendAny_outputs o _, lendAny_feeding o _, fun hb => wf_dst_lendAny o _ hb⟩, by simp, he⟩
    · obtain ⟨rfl, rfl⟩ := List.cons.inj (hq.symm.trans hq')
      exact ⟨{ srcAppend g s with script := rest, drainLeft := some k }, ⟨rfl, rfl, rfl, id⟩, rfl, he⟩

/-- The micro-step completes, and where it does not return it has consumed one byte. -/
theorem feed_microStep (g : List Byte) {s : State} (hi : s.Inv) (hs : s.atFeed) :
    ∃ t, stepWith g s = .next t ∧ t.Inv ∧ (t.feeding = true → t.src.length + 1 = s.src.length + g.length) := by
  obtain ⟨u, hp, hsrc, he⟩ := stepWith_atFeed g hs
  have hiu := hi.prepared_feeding hp
  obtain ⟨t, ht⟩ := exec_feed_completes hiu
  refine ⟨t, he.trans ht, execFeed_keeps_inv hiu ht, fun hf => ?_⟩
  rw [← List.length_append, ← hsrc]
  obtain ⟨-, hr⟩ | ⟨b, rest, hu, -, hr⟩ := execFeed_cases u <;> rw [ht] at hr
  · cases hr
    simp at hf
  · have htsrc : t.src = rest := runTransition_src hr.symm
    rw [htsrc, hu, List.length_cons]

theorem runIn_one (g : Environment) (s : State) : runIn g 1 s = stepWith (g 0) s := by
  rw [runIn]
  cases stepWith (g 0) s <;> rfl

theorem runIn_succ_of_next {g : Environment} {s v : State} (k : Nat) (h : stepWith (g 0) s = .next v) :
    runIn g (k + 1) s = runIn g.later k v := by
  simp [runIn, h]

/-- Along a FEED that has not returned, every micro-step has consumed one byte. -/
theorem feed_consumes (g : Environment) (k : Nat) (s t : State) (hi : s.Inv) (hs : s.atFeed)
    (hfeeding : ∀ j u, 1 ≤ j → j ≤ k → runIn g j s = .next u → u.feeding = true) (h : runIn g k s = .next t) :
    t.src.length + k = s.src.length + (Environment.bytes g k).length := by
  induction k generalizing g s with
  | zero =>
    cases h
    rfl
  | succ k ih =>
    obtain ⟨v, hv, hiv, hlen⟩ := feed_microStep (g 0) hi hs
    have hf : v.feeding = true := hfeeding 1 v le_rfl (by omega) ((runIn_one g s).trans hv)
    rw [runIn_succ_of_next k hv] at h
    have hrest := ih g.later v hiv (.inl hf)
      (fun j u hj hjk hu => hfeeding (j + 1) u (by omega) (by omega) ((runIn_succ_of_next j hv).trans hu)) h
    have := hlen hf
    rw [environment_bytes_succ, List.length_append]
    omega

/-- Appends that end after `m` groups end one group earlier from the next step on. -/
theorem length_bytes_of_ending {g : Environment} {m : Nat} (hend : ∀ i, m ≤ i → g i = []) :
    (Environment.bytes g m).length = (g 0).length + (Environment.bytes g.later (m - 1)).length := by
  cases m with
  | zero => simp [hend 0, Environment.bytes]
  | succ m => rw [environment_bytes_succ, List.length_append, Nat.add_sub_cancel]

/-- With appends that end, the bytes in the source and still to come are one fewer after each micro-step, so FEED returns. -/
theorem feed_returns (n : Nat) (g : Environment) (m : Nat) (s : State) (hi : s.Inv) (hs : s.atFeed) (hend : ∀ i, m ≤ i → g i = [])
    (hn : s.src.length + (Environment.bytes g m).length = n) :
    ∃ j t, 1 ≤ j ∧ runIn g j s = .next t ∧ t.feeding = false ∧
      (∀ i u, 1 ≤ i → i < j → runIn g i s = .next u → u.feeding = true) ∧
      j ≤ s.src.length + (Environment.bytes g j).length + 1 := by
  induction n generalizing g m s with
  | zero =>
    obtain ⟨v, hv, -, hlen⟩ := feed_microStep (g 0) hi hs
    refine ⟨1, v, le_rfl, (runIn_one g s).trans hv, ?_, fun i u hi hlt => by omega, by omega⟩
    have hbytes := length_bytes_of_ending hend
    by_contra hf
    have := hlen (by simpa using hf)
    omega
  | succ n ih =>
    obtain ⟨v, hv, hiv, hlen⟩ := feed_microStep (g 0) hi hs
    cases hf : v.feeding with
    | false => exact ⟨1, v, le_rfl, (runIn_one g s).trans hv, hf, fun i u hi hlt => by omega, by omega⟩
    | true =>
      have hlen := hlen hf
      have hbytes := length_bytes_of_ending hend
      obtain ⟨j, t, hj, ht, hft, hbefore, hbound⟩ :=
        ih g.later (m - 1) v hiv (.inl hf) (fun i him => hend (i + 1) (by omega)) (by omega)
      refine ⟨j + 1, t, by omega, (runIn_succ_of_next j hv).trans ht, hft, fun i u h1 hij hu => ?_, ?_⟩
      · obtain ⟨i, rfl⟩ := Nat.exists_eq_add_of_le' h1
        rw [runIn_succ_of_next i hv] at hu
        cases i with
        | zero =>
          cases hu
          exact hf
        | succ i => exact hbefore (i + 1) u (by omega) (by omega) hu
      · rw [environment_bytes_succ, List.length_append]
        omega

/-- A FEED in AWAITING_START1, in an environment that keeps the source above the guard with bytes that are no first marker. -/
structure Skipping (g : Environment) (s : State) : Prop where
  inv : s.Inv
  atFeed : s.atFeed
  start1 : s.st = .start1
  noMarker : mark0 ∉ s.src
  noMarkerToCome : ∀ i, mark0 ∉ g i
  aboveGuard : ∀ k, s.cfg.minAvail + k ≤ s.src.length + (Environment.bytes g (k + 1)).length

/-- A micro-step of such a FEED discards a byte and leaves another such FEED in progress. -/
theorem Skipping.microStep {g : Environment} {s : State} (h : Skipping g s) :
    ∃ t, stepWith (g 0) s = .next t ∧ t.feeding = true ∧ Skipping g.later t := by
  obtain ⟨u, hp, hsrc, he⟩ := stepWith_atFeed (g 0) h.atFeed
  have hust : u.st = .start1 := (congrArg DecoderView.st hp.decoder).trans h.start1
  have hno : mark0 ∉ u.src := by simp [hsrc, h.noMarker, h.noMarkerToCome 0]
  have hguard : u.cfg.minAvail ≤ u.src.length := by
    rw [hsrc, hp.cfg]
    simpa [Environment.bytes] using h.aboveGuard 0
  have hiu := h.inv.prepared_feeding hp
  obtain ⟨hm, -⟩ | ⟨b, rest, hu, -, hr⟩ := execFeed_cases u
  · obtain ⟨-, hlt⟩ | ⟨hne, -⟩ := (not_mayRead_iff hiu.legal).mp hm
    · exact absurd hguard (Nat.not_le.mpr hlt)
    · exact absurd hust hne
  · rw [hu, List.mem_cons, not_or] at hno
    obtain ⟨hb, hrest⟩ := hno
    rw [dstep_start1 b { u with feeding := true, src := rest } hust, if_neg (Ne.symm hb)] at hr
    refine ⟨_, he.trans hr, rfl, execFeed_keeps_inv hiu hr, .inl rfl, rfl, hrest, fun i => h.noMarkerToCome (i + 1), fun k => ?_⟩
    have hk := h.aboveGuard (k + 1)
    have hlen := congrArg List.length (hsrc.symm.trans hu)
    rw [environment_bytes_succ] at hk
    simp only [List.length_append, List.length_cons] at hk hlen
    simp only [hp.cfg]
    omega

/-- So FEED never returns. -/
theorem Skipping.runs_for_ever {g : Environment} {s : State} (h : Skipping g s) (k : Nat) :
    ∃ t, runIn g k s = .next t ∧ (1 ≤ k → t.feeding = true) := by
  induction k generalizing g s with
  | zero => exact ⟨s, rfl, nofun⟩
  | succ k ih =>
    obtain ⟨v, hv, hf, hskip⟩ := h.microStep
    obtain ⟨t, ht, hft⟩ := ih hskip
    refine ⟨t, (runIn_succ_of_next k hv).trans ht, fun _ => ?_⟩
    cases k with
    | zero =>
      cases ht
      exact hf
    | succ k => exact hft (Nat.succ_pos k)

/-- A run in the environment that the state has in store is one of the closed machine. -/
theorem run_of_runIn {k : Nat} {s t : State} (h : runIn s.arrivals.group k s = .next t) :
    ∃ v, run k s = .next v ∧ v.feeding = t.feeding := by
  have hrun := run_eq_runIn k Arrivals.nothing s
  rw [h] at hrun
  cases hr : run k s with
  | next v =>
    rw [hr] at hrun
    have hvt : ({ v with arrivals := Arrivals.nothing } : State) = { t with arrivals := Arrivals.nothing } :=
      Host.Outcome.next.inj hrun
    have hf := congrArg State.feeding hvt
    exact ⟨v, rfl, hf⟩
  | fault e => rw [hr] at hrun; cases hrun
  | refused e => rw [hr] at hrun; cases hrun

/-- A FEED in progress at the guard, and a zero in store before every step. -/
def pulsing : State :=
  { State.reset with src := [0x00, 0x00], feeding := true, arrivals := { soon := [], later := .cycle [[0x00]] } }

theorem group_pulsing (i : Nat) : pulsing.arrivals.group i = [0x00] := by
  induction i with
  | zero => rfl
  | succ i ih => exact ih

theorem length_bytes_pulsing (k : Nat) : (Environment.bytes pulsing.arrivals.group k).length = k := by
  induction k with
  | zero => rfl
  | succ k ih =>
    have hlater : Environment.later pulsing.arrivals.group = pulsing.arrivals.group :=
      funext fun i => (group_pulsing (i + 1)).trans (group_pulsing i).symm
    rw [environment_bytes_succ, List.length_append, hlater, ih, group_pulsing, List.length_singleton, Nat.add_comm]

theorem skipping_pulsing : Skipping pulsing.arrivals.group pulsing := by
  refine ⟨invariantsHoldAtReset.1.of_decoder rfl rfl nofun, .inl rfl, rfl, by decide, fun i => ?_, fun k => ?_⟩
  · rw [group_pulsing]
    decide
  · have hmin : pulsing.cfg.minAvail = 3 := rfl
    have hsrc : pulsing.src.length = 2 := rfl
    rw [length_bytes_pulsing, hmin, hsrc]
    omega

/-- Settles O43: each micro-step that does not return consumes a byte, so FEED returns where the appends end; where they keep it skipping
it does not, in the open machine and in the closed one. -/
theorem feedTerminates : Obligations.FeedTerminates := by
  refine ⟨feed_consumes, fun g s hi hs ⟨m, hend⟩ => feed_returns _ g m s hi hs hend rfl,
    fun g s hi hs hst hsrc hg hguard k hk => ?_, pulsing, skipping_pulsing.inv, rfl, fun k => ?_⟩
  · obtain ⟨t, ht, hf⟩ := Skipping.runs_for_ever ⟨hi, hs, hst, hsrc, hg, hguard⟩ k
    exact ⟨t, ht, hf hk⟩
  · cases k with
    | zero => exact ⟨pulsing, rfl, rfl⟩
    | succ k =>
      obtain ⟨t, ht, hf⟩ := skipping_pulsing.runs_for_ever (k + 1)
      obtain ⟨v, hv, hfv⟩ := run_of_runIn ht
      exact ⟨v, hv, hfv.trans (hf (Nat.succ_pos k))⟩

end Sys2Proof.Machine

namespace Sys2Proof.Machine

/-! ### FEED is `DSTEP` over the consumed bytes (43_decoder_ops.md R162) -/

/-- `DSTEP` looks at the decoder alone: from two states with one decoder it comes to one decoder and gives the same results. -/
theorem dstep_of_decoder {b : Byte} {s s' t : State} (hi : s.Inv) (hi' : s'.Inv) (hd : s'.decoder = s.decoder)
    (h : dstep b s = .next t) :
    ∃ t' given, dstep b s' = .next t' ∧ t'.decoder = t.decoder ∧ t.outputs = s.outputs ++ given ∧
      t'.outputs = s'.outputs ++ given := by
  have hfields := hd
  simp only [State.decoder, DecoderView.mk.injEq] at hfields
  obtain ⟨hst, hel, hfc, hrx, hout, hcfg⟩ := hfields
  cases hs : s.st with
  | start1 =>
    rw [dstep_start1 b s hs] at h
    cases h
    exact ⟨_, [], dstep_start1 b s' (hst.trans hs), by simp [State.decoder, hel, hfc, hrx, hout, hcfg], by simp, by simp⟩
  | start2 =>
    rw [dstep_start2 b s hs] at h
    cases h
    exact ⟨_, [], dstep_start2 b s' (hst.trans hs), by simp [State.decoder, hel, hfc, hrx, hout, hcfg], by simp, by simp⟩
  | length =>
    by_cases hb : b = s'.cfg.n
    · subst hb
      have hok := dstep_length_ok s hs
      rw [← hcfg, h] at hok
      cases hok
      exact ⟨_, [], dstep_length_ok s' (hst.trans hs), by simp [State.decoder, hrx, hout, hcfg], by simp, by simp⟩
    · rw [dstep_length_bad b s hs (hcfg ▸ hb)] at h
      cases h
      exact ⟨_, [.sizeMismatch], dstep_length_bad b s' (hst.trans hs) hb, by simp [State.decoder, hrx, hout, hcfg], by simp, by simp⟩
  | payload =>
    have hp' := hst.trans hs
    by_cases hf : s.fillCount.toNat < s.cfg.size
    · rw [dstep_payload_store b s hi hs hf] at h
      cases h
      exact ⟨_, [], dstep_payload_store b s' hi' hp' (by rwa [hfc, hcfg]), by simp [State.decoder, hst, hel, hfc, hrx, hout, hcfg],
        by simp, by simp⟩
    · have hfull : s.fillCount.toNat = s.cfg.size := by have := (hi.payload hs).2; omega
      have hfull' : s'.fillCount.toNat = s'.cfg.size := by rw [hfc, hfull, hcfg]
      by_cases hc : checksum s.cfg.n (s.rxBuf.take s.cfg.size) = b
      · rw [dstep_payload_complete b s hi hs hfull hc] at h
        cases h
        exact ⟨_, [.frameReady (s.rxBuf.take s.cfg.size)], dstep_payload_complete b s' hi' hp' hfull' (by rw [hcfg, hrx, hc]),
          by simp [State.decoder, hrx, hcfg], by simp, by simp [hrx, hcfg]⟩
      · rw [dstep_payload_reject b s hi hs hfull hc] at h
        cases h
        exact ⟨_, [.checksumMismatch], dstep_payload_reject b s' hi' hp' hfull' (by rwa [hcfg, hrx]),
          by simp [State.decoder, hrx, hout, hcfg], by simp, by simp⟩

/-- The two states have one decoder, and their results differ in `NeedMoreData`s alone. -/
structure State.Agrees (s s' : State) : Prop where
  decoder : s.decoder = s'.decoder
  results : news s.outputs = news s'.outputs

theorem State.Agrees.symm {s s' : State} (h : s.Agrees s') : s'.Agrees s := ⟨h.decoder.symm, h.results.symm⟩

theorem State.Agrees.trans {s s' s'' : State} (h : s.Agrees s') (h' : s'.Agrees s'') : s.Agrees s'' :=
  ⟨h.decoder.trans h'.decoder, h.results.trans h'.results⟩

theorem State.Agrees.st {s s' : State} (h : s.Agrees s') : s.st = s'.st := congrArg DecoderView.st h.decoder

theorem State.Agrees.cfg {s s' : State} (h : s.Agrees s') : s.cfg = s'.cfg := congrArg DecoderView.cfg h.decoder

theorem news_append (os os' : List Output) : news (os ++ os') = news os ++ news os' := List.filter_append ..

theorem dstep_agrees {b : Byte} {s s' t : State} (hi : s.Inv) (hi' : s'.Inv) (hs : s.Agrees s') (h : dstep b s = .next t) :
    ∃ t', dstep b s' = .next t' ∧ t.Agrees t' := by
  obtain ⟨t', given, ht', hd, ho, ho'⟩ := dstep_of_decoder hi hi' hs.decoder.symm h
  exact ⟨t', ht', hd.symm, by rw [ho, ho', news_append, news_append, hs.results]⟩

/-- `DSTEP` takes in `bs` one after another, where the START1 guard holds none of them back: with the later ones and `left` behind it,
a byte read in AWAITING_START1 is one of at least `START1_MIN_AVAIL`. -/
inductive Takes (left : List Byte) : List Byte → State → State → Prop
  | nil (s : State) : Takes left [] s s
  | cons {b : Byte} {bs : List Byte} {s t u : State} (guard : s.st = .start1 → s.cfg.minAvail ≤ (b :: bs ++ left).length)
      (first : dstep b { s with drainLeft := none } = .next t) (rest : Takes left bs t u) : Takes left (b :: bs) s u

theorem Takes.absorb_eq {left bs : List Byte} {s u : State} (h : Takes left bs s u) : absorb bs s = .next u := by
  induction h with
  | nil s => rfl
  | cons _ first _ ih => simp only [absorb, first, ih]

/-- Without its DRAIN a state meets the same invariants. -/
theorem State.Inv.withoutDrain {s : State} (hi : s.Inv) : ({ s with drainLeft := none } : State).Inv :=
  hi.of_decoder rfl hi.buffer nofun

/-- What is taken in depends on the decoder alone. -/
theorem Takes.of_agrees {left bs : List Byte} {s s' u : State} (h : Takes left bs s u) (hi : s.Inv) (hi' : s'.Inv)
    (hs : s.Agrees s') : ∃ u', Takes left bs s' u' ∧ u.Agrees u' := by
  induction h generalizing s' with
  | nil s => exact ⟨s', .nil s', hs⟩
  | cons guard first _ ih =>
    obtain ⟨t', first', ht⟩ := dstep_agrees hi.withoutDrain hi'.withoutDrain ⟨hs.decoder, hs.results⟩ first
    obtain ⟨u', rest', hu⟩ := ih (dstep_keeps_inv hi.withoutDrain first) (dstep_keeps_inv hi'.withoutDrain first') ht
    exact ⟨u', .cons (fun hst => hs.cfg ▸ guard (hs.st.trans hst)) first' rest', hu⟩

/-- Where the script issues FEEDs and nothing else, a step runs FEED's micro-step, after the environment's append, or the append is all. -/
theorem step_onlyFeeds {s : State} (hq : onlyFeeds s.script) :
    (∃ u, s.Prepared u ∧ u.src = s.src ++ s.arrivals.head ∧ u.arrivals = s.arrivals.tail ∧ onlyFeeds u.script ∧
      step s = exec .feed u) ∨
    ∃ q, onlyFeeds q ∧ step s = .next { deliver s with script := q } := by
  have htail : ∀ {x rest}, s.script = x :: rest → Stmt.isFeed x = true ∧ onlyFeeds rest := fun hs =>
    ⟨hq _ (by simp [hs]), fun y hy => hq y (by simp [hs, hy])⟩
  obtain ⟨-, h⟩ | ⟨-, -, h⟩ | ⟨-, w, o, rest, hs, h⟩ | ⟨-, bs, rest, hs, -⟩ | ⟨-, rest, hs, -⟩ | ⟨-, rest, hs, h⟩ |
    ⟨-, k, rest, hs, h⟩ | ⟨-, n, k, r, src, rest, hs, -⟩ := step_cases s
  · exact .inl ⟨deliver s, ⟨rfl, rfl, rfl, id⟩, rfl, rfl, hq, h⟩
  · exact .inr ⟨s.script, hq, h⟩
  · obtain ⟨hw, hrest⟩ := htail hs
    obtain rfl : w = 0x02 := beq_iff_eq.mp hw
    refine .inl ⟨_, prepared_lendAny o rest s, lendAny_src o _, ?_, ?_, h⟩
    · cases o <;> rfl
    · cases o <;> exact hrest
  · exact absurd (htail hs).1 (by simp [Stmt.isFeed])
  · exact absurd (htail hs).1 (by simp [Stmt.isFeed])
  · exact .inr ⟨rest, (htail hs).2, h⟩
  · exact .inl ⟨{ deliver s with script := rest, drainLeft := some k }, ⟨rfl, rfl, rfl, id⟩, rfl, rfl, (htail hs).2, h⟩
  · exact absurd (htail hs).1 (by simp [Stmt.isFeed])

/-- After a micro-step of FEED the script still issues FEEDs and nothing else. -/
theorem exec_feed_onlyFeeds {s t : State} (hq : onlyFeeds s.script) (h : exec .feed s = .next t) : onlyFeeds t.script := by
  obtain ⟨-, hs, -⟩ | ⟨o, u, rfl, hs, -⟩ := execFeed_goes_on_or_ends h
  · rwa [hs]
  · obtain he | ⟨k, -, -, he⟩ := endFeed_script o u <;> rw [he, hs]
    · exact hq
    · exact List.forall_mem_cons.mpr ⟨rfl, hq⟩

/-- `DSTEP` from `s` over the front of the stream, each byte taken in with the rest of the stream behind it, comes to the decoder and the
news of `t`, whose source holds the part not taken in. -/
def FollowsDstep (stream : List Byte) (s t : State) : Prop :=
  ∃ consumed u, stream = consumed ++ t.src ∧ Takes t.src consumed s u ∧ u.Agrees t

section
variable {stream : List Byte} {s v t : State}

theorem FollowsDstep.of_agrees (h : FollowsDstep stream v t) (hv : v.Inv) (hi : s.Inv) (hs : v.Agrees s) : FollowsDstep stream s t := by
  obtain ⟨consumed, u, hstream, htakes, hu⟩ := h
  obtain ⟨u', htakes', hu'⟩ := htakes.of_agrees hv hi hs
  exact ⟨consumed, u', hstream, htakes', hu'.symm.trans hu⟩

/-- A byte read before the rest, in a state `w` that agrees with `s`. -/
theorem FollowsDstep.of_read {b : Byte} {w : State} (h : FollowsDstep stream v t) (hw : w.Inv) (hi : s.Inv) (hs : w.Agrees s)
    (hd : dstep b w = .next v) (hguard : s.st = .start1 → s.cfg.minAvail ≤ (b :: stream).length) :
    FollowsDstep (b :: stream) s t := by
  obtain ⟨v', hv', hagree⟩ := dstep_agrees hw hi.withoutDrain ⟨hs.decoder, hs.results⟩ hd
  obtain ⟨consumed, u, hstream, htakes, hu⟩ := h.of_agrees (dstep_keeps_inv hw hd) (dstep_keeps_inv hi.withoutDrain hv') hagree
  subst hstream
  exact ⟨b :: consumed, u, rfl, .cons hguard hv' htakes, hu⟩

end

/-- R162: a run of FEEDs follows `DSTEP` over its stream. A step either leaves the decoder and the news, or reads one byte. -/
theorem run_followsDstep (k : Nat) (s t : State) (hi : s.Inv) (hq : onlyFeeds s.script) (h : run k s = .next t) :
    FollowsDstep (s.src ++ s.arrivals.bytes k) s t := by
  induction k generalizing s with
  | zero =>
    cases h
    exact ⟨[], t, by simp, .nil t, rfl, rfl⟩
  | succ k ih =>
    obtain ⟨v, hv, hrun⟩ := run_succ_next h
    have hiv := everyStepKeepsTheInvariants s v hi hv
    rw [bytes_succ, ← List.append_assoc]
    obtain ⟨w, hp, hsrc, harr, hqw, he⟩ | ⟨q, hqv, he⟩ := step_onlyFeeds hq <;> rw [he] at hv
    · have hagree : w.Agrees s := ⟨hp.decoder, congrArg news hp.outputs⟩
      obtain ⟨-, -, -, -, harrv, -⟩ := execFeed_frame hv
      have hrest := ih v hiv (exec_feed_onlyFeeds hqw hv) hrun
      rw [harrv, harr] at hrest
      rw [← hsrc]
      obtain ⟨-, hf⟩ | ⟨b, rest, hws, hm, hf⟩ := execFeed_cases w <;> rw [hf] at hv
      · cases hv
        rw [endFeed_src] at hrest
        refine hrest.of_agrees hiv hi (State.Agrees.trans ⟨endFeed_decoder _ w, ?_⟩ hagree)
        rw [endFeed_outputs, news_append_needMoreData]
      · have hsrcv : v.src = rest := runTransition_src hv
        rw [hsrcv] at hrest
        rw [hws]
        refine hrest.of_read ((hi.prepared_feeding hp).reading rest) hi ⟨hagree.decoder, hagree.results⟩ hv fun hst => ?_
        have hguard := ((mayRead_iff w).mp hm).1 (hagree.st.trans hst)
        rw [hagree.cfg, hws] at hguard
        simp only [List.length_cons, List.length_append] at hguard ⊢
        omega
    · cases hv
      exact (ih _ hiv hqv hrun).of_agrees hiv hi ⟨rfl, rfl⟩

/-- Settles O54: the bytes the run takes in, one after another. -/
theorem feedIsDstepOverTheConsumedBytes : Obligations.FeedIsDstepOverTheConsumedBytes := by
  intro k s t hi hq h
  obtain ⟨consumed, u, hstream, htakes, hu⟩ := run_followsDstep k s t hi hq h
  exact ⟨consumed, u, hstream, htakes.absorb_eq, hu.decoder, hu.results⟩

/-! ### Fragmentation (43_decoder_ops.md R162) -/

/-- Where FEED can take no more of `left`, `DSTEP` has taken in no byte of it. -/
theorem Takes.nothing_of_exhausted {left bs : List Byte} {s u : State} (h : Takes left bs s u)
    (hx : ({ s with src := bs ++ left } : State).exhausted) : bs = [] := by
  cases h with
  | nil => rfl
  | cons guard _ _ =>
    obtain ⟨hst, hlt⟩ | ⟨-, hnil⟩ := hx
    · exact absurd (guard hst) (Nat.not_le.mpr hlt)
    · exact absurd hnil (by simp)

/-- Whether FEED can take no more depends on the decoder and the bytes left. -/
theorem exhausted_of_agrees {s s' : State} {src : List Byte} (hs : s.Agrees s') (hx : ({ s with src := src } : State).exhausted) :
    ({ s' with src := src } : State).exhausted := by
  simpa only [State.exhausted, hs.st, hs.cfg] using hx

/-- Of one stream one front is taken in, as far as FEED can take it. -/
theorem Takes.unique {left₁ left₂ bs₁ bs₂ : List Byte} {s₁ s₂ u₁ u₂ : State} (h₁ : Takes left₁ bs₁ s₁ u₁)
    (h₂ : Takes left₂ bs₂ s₂ u₂) (hi₁ : s₁.Inv) (hi₂ : s₂.Inv) (hs : s₁.Agrees s₂) (hstream : bs₁ ++ left₁ = bs₂ ++ left₂)
    (hx₁ : ({ u₁ with src := left₁ } : State).exhausted) (hx₂ : ({ u₂ with src := left₂ } : State).exhausted) :
    left₁ = left₂ ∧ u₁.Agrees u₂ := by
  induction h₁ generalizing bs₂ s₂ with
  | nil s =>
    have hx := exhausted_of_agrees hs hx₁
    rw [show left₁ = bs₂ ++ left₂ from hstream] at hx
    obtain rfl := h₂.nothing_of_exhausted hx
    cases h₂
    exact ⟨hstream, hs⟩
  | cons guard first rest ih =>
    cases h₂ with
    | nil =>
      have hx := exhausted_of_agrees hs.symm hx₂
      rw [show left₂ = _ ++ left₁ from hstream.symm] at hx
      exact absurd ((Takes.cons guard first rest).nothing_of_exhausted hx) (by simp)
    | cons guard' first' rest' =>
      obtain ⟨rfl, hrest⟩ := List.cons.inj hstream
      obtain ⟨t', ht', hagree⟩ := dstep_agrees hi₁.withoutDrain hi₂.withoutDrain ⟨hs.decoder, hs.results⟩ first
      cases first'.symm.trans ht'
      exact ih rest' (dstep_keeps_inv hi₁.withoutDrain first) (dstep_keeps_inv hi₂.withoutDrain first') hagree hrest hx₁

/-- Settles O55: both runs take in the one front of the stream that FEED can take. -/
theorem fragmentationInvariance : Obligations.FragmentationInvariance := by
  intro k₁ k₂ s₁ s₂ t₁ t₂ hi₁ hi₂ hd ho hq₁ hq₂ h₁ h₂ hstream hx₁ hx₂
  obtain ⟨bs₁, u₁, hb₁, htakes₁, hu₁⟩ := run_followsDstep k₁ s₁ t₁ hi₁ hq₁ h₁
  obtain ⟨bs₂, u₂, hb₂, htakes₂, hu₂⟩ := run_followsDstep k₂ s₂ t₂ hi₂ hq₂ h₂
  obtain ⟨hleft, hu⟩ := htakes₁.unique htakes₂ hi₁ hi₂ ⟨hd, ho⟩ (hb₁.symm.trans (hstream.trans hb₂))
    (exhausted_of_agrees hu₁.symm hx₁) (exhausted_of_agrees hu₂.symm hx₂)
  have ht := hu₁.symm.trans (hu.trans hu₂)
  exact ⟨hleft, ht.decoder, ht.results⟩

end Sys2Proof.Machine

namespace Sys2Proof.Machine

/-! ### Junk is skipped (43_decoder_ops.md R164) -/

/-- The bytes of the header that the decoder has begun, outside AWAITING_PAYLOAD. -/
def State.headerBegun (s : State) : List Byte :=
  match s.st with
  | .start1 => []
  | .start2 => [mark0]
  | .length => [mark0, mark1]
  | .payload => []

/-- Somewhere in the stream stands a header with another length than `n`. -/
def HoldsWrongLength (n : Byte) (stream : List Byte) : Prop := ∃ u x v, stream = u ++ [mark0, mark1, x] ++ v ∧ x ≠ n

section
variable {n : Byte} {p q : List Byte}

theorem junkFor.of_append_left (h : junkFor n (p ++ q)) : junkFor n p := fun u v hp =>
  h u (v ++ q) (by rw [hp, List.append_assoc])

theorem junkFor.of_append_right (h : junkFor n (p ++ q)) : junkFor n q := fun u v hq =>
  h (p ++ u) v (by rw [hq]; simp only [List.append_assoc])

theorem HoldsWrongLength.append_right (h : HoldsWrongLength n p) : HoldsWrongLength n (p ++ q) := by
  obtain ⟨u, x, v, rfl, hx⟩ := h
  exact ⟨u, x, v ++ q, by simp only [List.append_assoc], hx⟩

theorem HoldsWrongLength.append_left (h : HoldsWrongLength n q) : HoldsWrongLength n (p ++ q) := by
  obtain ⟨u, x, v, rfl, hx⟩ := h
  exact ⟨p ++ u, x, v, by simp only [List.append_assoc], hx⟩

end

/-- A byte of junk goes on with the header begun, or drops what was begun; SizeMismatch comes only of a wrong length. -/
theorem dstep_junk {b : Byte} {rest : List Byte} {s t : State} (hr : s.cfg.retest = false) (hp : s.st ≠ .payload)
    (hjunk : junkFor s.cfg.n (s.headerBegun ++ b :: rest)) (h : dstep b s = .next t) :
    t.cfg = s.cfg ∧ t.st ≠ .payload ∧ (∃ dropped, s.headerBegun ++ b :: rest = dropped ++ (t.headerBegun ++ rest)) ∧
      (t.outputs = s.outputs ∨
        t.outputs = s.outputs ++ [.sizeMismatch] ∧ HoldsWrongLength s.cfg.n (s.headerBegun ++ b :: rest)) := by
  cases hst : s.st with
  | start1 =>
    rw [dstep_start1 b s hst] at h
    cases h
    by_cases hb : b = mark0
    · subst hb
      simp [State.headerBegun, hst]
    · exact ⟨rfl, by simp [hb], ⟨[b], by simp [State.headerBegun, hst, hb]⟩, .inl rfl⟩
  | start2 =>
    rw [dstep_start2 b s hst] at h
    cases h
    by_cases hb : b = mark1
    · subst hb
      simp [State.headerBegun, hst]
    · exact ⟨rfl, by simp [hb, hr], ⟨[mark0, b], by simp [State.headerBegun, hst, hb, hr]⟩, .inl rfl⟩
  | length =>
    by_cases hb : b = s.cfg.n
    · rw [State.headerBegun, hst, hb] at hjunk
      exact absurd rfl (hjunk [] rest)
    · rw [dstep_length_bad b s hst hb] at h
      cases h
      refine ⟨by simp, by simp, ⟨[mark0, mark1, b], by simp [State.headerBegun, hst]⟩, .inr ⟨by simp, [], b, rest, ?_, hb⟩⟩
      simp [State.headerBegun, hst]
  | payload => exact absurd hst hp

/-- `DSTEP` over junk never reaches AWAITING_PAYLOAD, and its only result is SizeMismatch, given for a wrong length. -/
theorem absorb_junk (bs : List Byte) (s u : State) (hr : s.cfg.retest = false) (hp : s.st ≠ .payload)
    (hjunk : junkFor s.cfg.n (s.headerBegun ++ bs)) (h : absorb bs s = .next u) :
    u.cfg = s.cfg ∧ u.st ≠ .payload ∧ ∃ given, u.outputs = s.outputs ++ given ∧
      ∀ o ∈ given, o = .sizeMismatch ∧ HoldsWrongLength s.cfg.n (s.headerBegun ++ bs) := by
  induction bs generalizing s with
  | nil =>
    cases h
    exact ⟨rfl, hp, [], by simp, by simp⟩
  | cons b bs ih =>
    rw [absorb] at h
    cases hd : dstep b { s with drainLeft := none } with
    | fault e => rw [hd] at h; cases h
    | refused e => rw [hd] at h; cases h
    | next t =>
      rw [hd] at h
      obtain ⟨hcfg, htp, ⟨dropped, hdrop⟩, hout⟩ := dstep_junk (s := { s with drainLeft := none }) hr hp hjunk hd
      replace hcfg : t.cfg = s.cfg := hcfg
      replace hdrop : s.headerBegun ++ b :: bs = dropped ++ (t.headerBegun ++ bs) := hdrop
      rw [hdrop] at hjunk ⊢
      obtain ⟨hcfgu, hup, given, hgiven, hall⟩ := ih t (hcfg ▸ hr) htp (hcfg ▸ hjunk.of_append_right) h
      have hlater : ∀ o ∈ given, o = .sizeMismatch ∧ HoldsWrongLength s.cfg.n (dropped ++ (t.headerBegun ++ bs)) := fun o ho =>
        ⟨(hall o ho).1, (hcfg ▸ (hall o ho).2).append_left⟩
      refine ⟨hcfgu.trans hcfg, hup, ?_⟩
      obtain hsame | ⟨hmis, hwrong⟩ := hout
      · exact ⟨given, by rw [hgiven, hsame], hlater⟩
      · exact ⟨.sizeMismatch :: given, by rw [hgiven, hmis, List.append_assoc]; rfl,
          List.forall_mem_cons.mpr ⟨⟨rfl, hdrop ▸ hwrong⟩, hlater⟩⟩

/-- A run adds results and takes none back. -/
theorem run_outputs {k : Nat} {s t : State} (h : run k s = .next t) : ∃ given, t.outputs = s.outputs ++ given := by
  have hstep : ∀ v w : State, s.outputs <+: v.outputs → step v = .next w → s.outputs <+: w.outputs := by
    intro v w hv hw
    obtain hsame | ⟨⟨o, ho⟩, -⟩ := atMostOneResultAStep v w hw
    · rwa [hsame]
    · rw [ho]
      exact hv.trans (List.prefix_append _ _)
  obtain ⟨given, hgiven⟩ := run_keeps hstep List.prefix_rfl h
  exact ⟨given, hgiven.symm⟩

/-- What is no news is `NeedMoreData`. -/
theorem eq_needMoreData_or_mem_news {os : List Output} {o : Output} (h : o ∈ os) : o = .needMoreData ∨ o ∈ news os := by
  cases o with
  | needMoreData => exact .inl rfl
  | frameReady | sizeMismatch | checksumMismatch | encodeOk | bufferTooSmall | resetDone => exact .inr (List.mem_filter.mpr ⟨h, rfl⟩)

/-- Settles O57: the run follows `DSTEP` over junk, and with no header begun between two FEEDs it stands in AWAITING_START1 there. -/
theorem junkIsSkipped : Obligations.JunkIsSkipped := by
  intro k s t hi _ hst hr hg hq hjunk h
  have hnone : s.headerBegun = [] := by rw [State.headerBegun, hst]
  obtain ⟨consumed, u, hstream, htakes, hu⟩ := run_followsDstep k s t hi hq h
  rw [hstream] at hjunk ⊢
  obtain ⟨hcfg, hp, given, hgiven, hall⟩ := absorb_junk consumed s u hr (by simp [hst])
    (by rw [hnone]; exact hjunk.of_append_left) htakes.absorb_eq
  obtain ⟨new, hnew⟩ := run_outputs h
  have hnews : ∀ o ∈ news new, o = .sizeMismatch ∧ HoldsWrongLength s.cfg.n (consumed ++ t.src) := by
    have hres := hu.results
    rw [hgiven, hnew, news_append, news_append, List.append_cancel_left_eq] at hres
    intro o ho
    rw [← hres] at ho
    obtain ⟨hmis, hwrong⟩ := hall o (List.mem_of_mem_filter ho)
    rw [hnone] at hwrong
    exact ⟨hmis, hwrong.append_right⟩
  refine ⟨new, hnew, fun o ho => (eq_needMoreData_or_mem_news ho).imp_right fun hn => (hnews o hn).1, fun hf => ?_, fun hmis => ?_⟩
  · obtain ⟨-, hunbroken⟩ : t.Inv ∧ t.HeaderUnbroken := by
      refine run_keeps (P := fun v => v.Inv ∧ v.HeaderUnbroken)
        (fun v w hv hw => ⟨everyStepKeepsTheInvariants v w hv.1 hw, headersAreNeverStranded v w hv.1 hv.2 hw⟩) ⟨hi, ?_⟩ h
      exact ⟨fun _ _ h2 => by simp [hst] at h2, fun _ _ h3 => by simp [hst] at h3⟩
    have hcfgt : t.cfg = s.cfg := hu.cfg.symm.trans hcfg
    exact (hunbroken.not_feeding (hcfgt ▸ hr) (hcfgt ▸ hg) hf).resolve_right (hu.st ▸ hp)
  · obtain hnmd | hn := eq_needMoreData_or_mem_news hmis
    · cases hnmd
    · exact (hnews _ hn).2

end Sys2Proof.Machine

namespace Sys2Proof.Machine

/-! ### Whole frames, good and broken, and one FEED over them (43_decoder_ops.md R163, R165, R166) -/

/-- `DSTEP` over `bs` gives the result `o` with the last byte and none before it, and is not back in AWAITING_START1 before it. -/
inductive EndsWith (o : Output) : List Byte → State → State → Prop
  | last {b : Byte} {s t : State} (step : dstep b s = .next t) (result : t.outputs = s.outputs ++ [o]) : EndsWith o [b] s t
  | more {b : Byte} {bs : List Byte} {s t u : State} (step : dstep b s = .next t) (silent : t.outputs = s.outputs)
      (inside : t.st ≠ .start1) (rest : EndsWith o bs t u) : EndsWith o (b :: bs) s u

section
variable {o : Output} {bs : List Byte} {s u : State}

/-- A transition that gives a result leads to AWAITING_START1. -/
theorem dstep_st_of_result {b : Byte} {t : State} (h : dstep b s = .next t) (ho : t.outputs = s.outputs ++ [o]) :
    t.st = .start1 := by
  obtain ⟨st, el, fc, rx, rfl⟩ | ⟨o', rx, out, -, rfl⟩ := dstep_goes_on_or_ends h
  · simp at ho
  · simp

theorem EndsWith.st (h : EndsWith o bs s u) : u.st = .start1 := by
  induction h with
  | last step result => exact dstep_st_of_result step result
  | more _ _ _ _ ih => exact ih

theorem EndsWith.outputs (h : EndsWith o bs s u) : u.outputs = s.outputs ++ [o] := by
  induction h with
  | last _ result => exact result
  | more _ silent _ _ ih => rw [ih, silent]

theorem dstep_cfg {b : Byte} {t : State} (h : dstep b s = .next t) : t.cfg = s.cfg := by
  obtain ⟨st, el, fc, rx, rfl⟩ | ⟨o', rx, out, -, rfl⟩ := dstep_goes_on_or_ends h <;> simp

theorem EndsWith.cfg (h : EndsWith o bs s u) : u.cfg = s.cfg := by
  induction h with
  | last step _ => exact dstep_cfg step
  | more step _ _ _ ih => exact ih.trans (dstep_cfg step)

theorem withoutDrain_eq (h : s.drainLeft = none) : ({ s with drainLeft := none } : State) = s := by
  rw [← h]

/-- Outside a DRAIN that is what `absorb` gives. -/
theorem EndsWith.absorb_eq (h : EndsWith o bs s u) (hd : s.drainLeft = none) : absorb bs s = .next u := by
  induction h with
  | last step _ => simp only [absorb, withoutDrain_eq hd, step]
  | more step _ _ _ ih =>
    simp only [absorb, withoutDrain_eq hd, step]
    refine ih ?_
    obtain ⟨st, el, fc, rx, rfl⟩ | ⟨o', rx, out, -, rfl⟩ := dstep_goes_on_or_ends step
    · exact hd
    · simp

/-- A machine between two commands, to whose source nothing comes. -/
structure State.Resting (s : State) : Prop where
  inv : s.Inv
  idle : s.feeding = false
  quiet : s.quiet

theorem State.Resting.noDrain (h : s.Resting) : s.drainLeft = none := by
  by_contra hd
  simpa [h.idle] using h.inv.drain hd

/-- What one FEED has come to that has consumed its bytes up to `rest`, with the result `o`, and was issued in `w`. -/
structure Returned (o : Output) (rest : List Byte) (w t : State) : Prop where
  resting : t.Resting
  src : t.src = rest
  script : t.script = w.script
  outputs : t.outputs = w.outputs ++ [o]

/-- A transition that gives no result leaves FEED in progress, and nothing but the decoder has changed. -/
theorem dstep_silent {b : Byte} {t : State} (h : dstep b s = .next t) (ho : t.outputs = s.outputs) :
    t.feeding = s.feeding ∧ t.src = s.src ∧ t.script = s.script ∧ t.drainLeft = s.drainLeft ∧ t.arrivals = s.arrivals := by
  obtain ⟨st, el, fc, rx, rfl⟩ | ⟨o', rx, out, -, rfl⟩ := dstep_goes_on_or_ends h
  · exact ⟨rfl, rfl, rfl, rfl, rfl⟩
  · simp at ho

/-- A transition that gives a result ends FEED. -/
theorem dstep_result {b : Byte} {t : State} (hd : s.drainLeft = none) (h : dstep b s = .next t) (ho : t.outputs = s.outputs ++ [o]) :
    t.feeding = false ∧ t.src = s.src ∧ t.script = s.script ∧ t.arrivals = s.arrivals := by
  obtain ⟨st, el, fc, rx, rfl⟩ | ⟨o', rx, out, -, rfl⟩ := dstep_goes_on_or_ends h
  · simp at ho
  · exact ⟨by simp, by simp, endFeed_script_of_none _ _ hd, by simp⟩

/-- The next step of `x` is FEED's micro-step in `w`, outside a DRAIN, and nothing comes to the source. -/
structure FeedsIn (x w : State) : Prop where
  step : step x = exec .feed w
  inv : ({ w with feeding := true } : State).Inv
  quiet : w.quiet
  noDrain : w.drainLeft = none

theorem feedsIn_of_feeding (hf : s.feeding = true) (hi : s.Inv) (hq : s.quiet) (hd : s.drainLeft = none) : FeedsIn s (deliver s) :=
  ⟨step_feeding s hf, hi.prepared_feeding ⟨rfl, rfl, rfl, id⟩, quiet_deliver hq, hd⟩

theorem State.Resting.feedsIn {q : List Stmt} (hs : s.Resting) (hq : s.script = feedStmt :: q) :
    FeedsIn s { deliver s with script := q } :=
  ⟨step_issue s feedStmt q hs.idle hq, hs.inv.prepared_feeding ⟨rfl, rfl, rfl, id⟩, quiet_deliver hs.quiet, hs.noDrain⟩

/-- FEED reads the oldest byte where the guard lets it. -/
theorem FeedsIn.step_reads {x w : State} {b : Byte} {rest : List Byte} (h : FeedsIn x w)
    (hguard : w.st = .start1 → w.cfg.minAvail ≤ w.src.length) (hsrc : w.src = b :: rest) :
    Machine.step x = dstep b { w with feeding := true, src := rest } :=
  h.step.trans (exec_feed_reads ((mayRead_iff w).mpr ⟨hguard, by simp [hsrc]⟩) hsrc)

/-- Nothing is delivered to a quiet machine. -/
theorem deliver_src_of_quiet (h : s.quiet) : (deliver s).src = s.src := by
  have hnone : s.arrivals.head = [] := h 0
  simp [hnone]

/-- FEED over bytes of which the last one ends it, with all of them in the source: one micro-step for each. -/
theorem EndsWith.run_feed {x w : State} {rest : List Byte} (h : EndsWith o bs s u) (hs : s.Inv) (hx : FeedsIn x w)
    (hdec : w.decoder = s.decoder) (hsrc : w.src = bs ++ rest) (hguard : w.st = .start1 → w.cfg.minAvail ≤ w.src.length) :
    ∃ t, run bs.length x = .next t ∧ Returned o rest w t ∧ t.decoder = u.decoder := by
  induction h generalizing x w with
  | @last b s t step result =>
    obtain ⟨v, given, hv, hdv, ho, hov⟩ := dstep_of_decoder hs (hx.inv.reading rest) hdec step
    obtain rfl : given = [o] := List.append_cancel_left (ho.symm.trans result)
    obtain ⟨hf, hsv, hqv, hav⟩ := dstep_result (s := { w with feeding := true, src := rest }) hx.noDrain hv hov
    have hquiet : v.quiet := by
      rw [State.quiet, hav]
      exact hx.quiet
    exact ⟨v, run_succ_of_next 0 ((hx.step_reads hguard hsrc).trans hv),
      ⟨⟨dstep_keeps_inv (hx.inv.reading rest) hv, hf, hquiet⟩, hsv, hqv, hov⟩, hdv⟩
  | @more b bs s t u step silent inside _ ih =>
    obtain ⟨v, given, hv, hdv, ho, hov⟩ := dstep_of_decoder hs (hx.inv.reading (bs ++ rest)) hdec step
    obtain rfl : given = [] := by simpa [silent] using ho
    rw [List.append_nil] at hov
    obtain ⟨hf, hsv, hqv, hdr, hav⟩ := dstep_silent hv hov
    have hquiet : v.quiet := by
      rw [State.quiet, hav]
      exact hx.quiet
    have hst : v.st = t.st := congrArg DecoderView.st hdv
    have hfeeds := feedsIn_of_feeding hf (dstep_keeps_inv (hx.inv.reading (bs ++ rest)) hv) hquiet (hdr.trans hx.noDrain)
    obtain ⟨t', hrun, ⟨hrest, hsrc', hscript, hout⟩, hdec'⟩ := ih (dstep_keeps_inv hs step) hfeeds hdv
      ((deliver_src_of_quiet hquiet).trans hsv) (fun h1 => absurd (hst.symm.trans h1) inside)
    exact ⟨t', (run_succ_of_next _ ((hx.step_reads hguard hsrc).trans hv)).trans hrun,
      ⟨hrest, hsrc', hscript.trans hqv, hout.trans (congrArg (· ++ [_]) hov)⟩, hdec'⟩

/-- The same for a FEED that a resting machine issues. -/
theorem EndsWith.run_feedStmt {rest : List Byte} {q : List Stmt} (h : EndsWith o bs s u) (hs : s.Resting) (hsrc : s.src = bs ++ rest)
    (hguard : s.st = .start1 → s.cfg.minAvail ≤ s.src.length) (hq : s.script = feedStmt :: q) :
    ∃ t, run bs.length s = .next t ∧ Returned o rest { s with script := q } t ∧ t.decoder = u.decoder := by
  have hdel := deliver_src_of_quiet hs.quiet
  obtain ⟨t, hrun, ⟨hrest, hsrc', hscript, hout⟩, hdec⟩ := h.run_feed hs.inv (hs.feedsIn hq) rfl (hdel.trans hsrc)
    (by rw [hdel]; exact hguard)
  exact ⟨t, hrun, ⟨hrest, hsrc', hscript, hout⟩, hdec⟩

end

/-! ### Headers and frames -/

theorem dstep_mark0 {s : State} (h : s.st = .start1) : dstep mark0 s = .next { s with st := .start2 } := by
  simpa using dstep_start1 mark0 s h

theorem dstep_mark1 {s : State} (h : s.st = .start2) : dstep mark1 s = .next { s with st := .length } := by
  simpa using dstep_start2 mark1 s h

/-- R166: behind the markers a wrong length ends the header. -/
theorem endsWith_wrongLength_start2 {s : State} {x : Byte} (hst : s.st = .start2) (hx : x ≠ s.cfg.n) :
    EndsWith .sizeMismatch [mark1, x] s (endFeed .sizeMismatch (returnToStart1 s)) :=
  .more (dstep_mark1 hst) rfl nofun (.last (dstep_length_bad x { s with st := .length } rfl hx) (endFeed_outputs ..))

theorem endsWith_wrongLength_start1 {s : State} {x : Byte} (hst : s.st = .start1) (hx : x ≠ s.cfg.n) :
    EndsWith .sizeMismatch [mark0, mark1, x] s (endFeed .sizeMismatch (returnToStart1 s)) :=
  .more (dstep_mark0 hst) rfl nofun (endsWith_wrongLength_start2 (s := { s with st := .start2 }) rfl hx)

/-- What a frame with the payload `p` and the checksum byte `c` gives. -/
def verdict (n : Byte) (p : List Byte) (c : Byte) : Output := if checksum n p = c then .frameReady p else .checksumMismatch

/-- What `record_out` holds after it. -/
def recordAfter (n : Byte) (p : List Byte) (c : Byte) (before : List Byte) : List Byte := if checksum n p = c then p else before

/-- In AWAITING_PAYLOAD, with the front of `p` stored, the rest `q` of it and a checksum byte end the frame. -/
theorem endsWith_payload {p q : List Byte} {c : Byte} {s : State} (hi : s.Inv) (hst : s.st = .payload)
    (hp : s.rxBuf.take s.fillCount.toNat ++ q = p) (hlen : s.fillCount.toNat + q.length = s.cfg.size) :
    ∃ u, EndsWith (verdict s.cfg.n p c) (q ++ [c]) s u ∧ u.recordOut = recordAfter s.cfg.n p c s.recordOut := by
  induction q generalizing s with
  | nil =>
    have hfull : s.fillCount.toNat = s.cfg.size := hlen
    rw [hfull, List.append_nil] at hp
    subst hp
    by_cases hc : checksum s.cfg.n (s.rxBuf.take s.cfg.size) = c
    · refine ⟨_, .last (dstep_payload_complete c s hi hst hfull hc) ?_, ?_⟩ <;> simp [verdict, recordAfter, hc]
    · refine ⟨_, .last (dstep_payload_reject c s hi hst hfull hc) ?_, ?_⟩ <;> simp [verdict, recordAfter, hc]
  | cons b q ih =>
    have hf : s.fillCount.toNat < s.cfg.size := by rw [← hlen]; simp
    have hstore := dstep_payload_store b s hi hst hf
    have hsucc := fillCount_succ s hi hst
    have hstored : (s.rxBuf.set s.fillCount.toNat b).take (s.fillCount + 1).toNat ++ q = p := by
      rw [hsucc, take_succ_set _ _ b (fillCount_inside s hi hst), List.append_assoc, List.singleton_append, hp]
    have hleft : (s.fillCount + 1).toNat + q.length = s.cfg.size := by
      rw [hsucc, ← hlen, List.length_cons]
      omega
    obtain ⟨u, hu, hrec⟩ := ih (dstep_keeps_inv hi hstore) hst hstored hleft
    exact ⟨u, .more hstore rfl (by simp [hst]) hu, hrec⟩

/-- A frame's bytes, with any payload of `N` bytes and any checksum byte, end the frame they begin. -/
theorem endsWith_frame {p : List Byte} (c : Byte) {s : State} (hi : s.Inv) (hst : s.st = .start1) (hlen : p.length = s.cfg.size) :
    ∃ u, EndsWith (verdict s.cfg.n p c) ([mark0, mark1, s.cfg.n] ++ p ++ [c]) s u ∧
      u.recordOut = recordAfter s.cfg.n p c s.recordOut := by
  have h1 := dstep_mark0 hst
  have h2 := dstep_mark1 (s := { s with st := .start2 }) rfl
  have h3 := dstep_length_ok { s with st := .length } rfl
  have hi3 := dstep_keeps_inv (dstep_keeps_inv (dstep_keeps_inv hi h1) h2) h3
  obtain ⟨u, hu, hrec⟩ := endsWith_payload (p := p) (q := p) (c := c) hi3 rfl rfl (by simpa using hlen)
  exact ⟨u, .more h1 rfl nofun (.more h2 rfl nofun (.more h3 rfl nofun hu)), hrec⟩

/-- A valid frame gives its record. -/
theorem endsWith_validFrame {r : List Byte} {s : State} (hi : s.Inv) (hst : s.st = .start1) (hlen : r.length = s.cfg.size) :
    ∃ u, EndsWith (.frameReady r) (frame s.cfg.n r) s u := by
  obtain ⟨u, hu, -⟩ := endsWith_frame (checksum s.cfg.n r) hi hst hlen
  rw [verdict, if_pos rfl] at hu
  exact ⟨u, hu⟩

/-- A frame with one payload or checksum byte changed is rejected, and `record_out` stays. -/
theorem endsWith_changedFrame {r : List Byte} {i : Nat} {x : Byte} {s : State} (hi : s.Inv) (hst : s.st = .start1)
    (hlen : r.length = s.cfg.size) (hin : i < s.cfg.size + 1) (hx : (r ++ [checksum s.cfg.n r])[i]? ≠ some x) :
    ∃ u, EndsWith .checksumMismatch ([mark0, mark1, s.cfg.n] ++ (r ++ [checksum s.cfg.n r]).set i x) s u ∧
      u.recordOut = s.recordOut := by
  have hbroken : ∃ p c, (r ++ [checksum s.cfg.n r]).set i x = p ++ [c] ∧ p.length = s.cfg.size ∧ checksum s.cfg.n p ≠ c := by
    by_cases hr : i < r.length
    · rw [List.getElem?_append_left hr] at hx
      exact ⟨r.set i x, checksum s.cfg.n r, List.set_append_left _ _ hr, by simpa using hlen,
        checksumDetectsOneChangedByte.1 _ r i x hr hx⟩
    · obtain rfl : i = r.length := by omega
      rw [List.getElem?_concat_length] at hx
      exact ⟨r, x, by simp, hlen, fun h => hx (congrArg some h)⟩
  obtain ⟨p, c, hbytes, hp, hc⟩ := hbroken
  obtain ⟨u, hu, hrec⟩ := endsWith_frame c hi hst hp
  rw [verdict, if_neg hc] at hu
  rw [recordAfter, if_neg hc] at hrec
  rw [hbytes, ← List.append_assoc]
  exact ⟨u, hu, hrec⟩

/-- Settles O58: over the changed frame's bytes, and by the FEED that consumes them. -/
theorem oneChangedByteIsRejected : Obligations.OneChangedByteIsRejected := by
  refine ⟨fun s r i x hi hst hlen hin hx => ?_, fun s r rest i x q hi hf hst hquiet hlen hin hx hsrc hguard hq => ?_⟩
  · obtain ⟨u, hu, hrec⟩ := endsWith_changedFrame (s := { s with drainLeft := none }) hi.withoutDrain hst hlen hin hx
    exact ⟨u, hu.absorb_eq rfl, hu.st, hu.outputs, hrec⟩
  · obtain ⟨u, hu, hrec⟩ := endsWith_changedFrame hi hst hlen hin hx
    obtain ⟨t, hrun, ⟨hrest, htsrc, hscript, hout⟩, hdec⟩ := hu.run_feedStmt ⟨hi, hf, hquiet⟩ hsrc (fun _ => hguard) hq
    exact ⟨_, t, hrun, hrest.idle, hscript, htsrc, hout, (congrArg DecoderView.recordOut hdec).trans hrec⟩

/-- A FEED over a valid frame leads from rest in AWAITING_START1 to rest in AWAITING_START1, with the record out. -/
theorem run_validFrame {r rest : List Byte} {q : List Stmt} {s : State} (hs : s.Resting) (hst : s.st = .start1)
    (hlen : r.length = s.cfg.size) (hguard : s.cfg.minAvail ≤ s.cfg.size + 4) (hsrc : s.src = frame s.cfg.n r ++ rest)
    (hq : s.script = feedStmt :: q) :
    ∃ k t, run k s = .next t ∧ Returned (.frameReady r) rest { s with script := q } t ∧ t.st = .start1 ∧ t.cfg = s.cfg := by
  obtain ⟨u, hu⟩ := endsWith_validFrame hs.inv hst hlen
  have hroom : s.cfg.minAvail ≤ s.src.length := by
    rw [hsrc, List.length_append, length_frame, hlen]
    omega
  obtain ⟨t, hrun, hret, hdec⟩ := hu.run_feedStmt hs hsrc (fun _ => hroom) hq
  exact ⟨_, t, hrun, hret, (congrArg DecoderView.st hdec).trans hu.st, (congrArg DecoderView.cfg hdec).trans hu.cfg⟩

/-- Settles O59: the header's bytes end with SizeMismatch, whichever state they are read from, and the FEED after it starts afresh. -/
theorem wrongLengthIsRejected : Obligations.WrongLengthIsRejected := by
  refine ⟨fun s x header hi hx hheader => ?_, fun s x rest q hi hf hst hquiet hx hsrc hguard hq => ?_,
    fun s x rest q hi hf hst hquiet hx hsrc hq => ?_, fun s x r hi hf hst hquiet hx hlen hsrc hguard hq => ?_⟩
  · refine ⟨endFeed .sizeMismatch (returnToStart1 { s with drainLeft := none }), ?_, by simp, by simp, by simp, by simp⟩
    obtain ⟨hst, rfl⟩ | ⟨hst, rfl⟩ := hheader
    · exact (endsWith_wrongLength_start1 (s := { s with drainLeft := none }) hst hx).absorb_eq rfl
    · exact (endsWith_wrongLength_start2 (s := { s with drainLeft := none }) hst hx).absorb_eq rfl
  · have hu := endsWith_wrongLength_start1 hst hx
    obtain ⟨t, hrun, ⟨hrest, htsrc, hscript, hout⟩, hdec⟩ := hu.run_feedStmt ⟨hi, hf, hquiet⟩ hsrc (fun _ => hguard) hq
    exact ⟨t, hrun, hrest.idle, (congrArg DecoderView.st hdec).trans hu.st, hscript, htsrc, hout⟩
  · have hu := endsWith_wrongLength_start2 hst hx
    obtain ⟨t, hrun, ⟨hrest, htsrc, hscript, hout⟩, hdec⟩ :=
      hu.run_feedStmt ⟨hi, hf, hquiet⟩ hsrc (fun h => by simp [hst] at h) hq
    exact ⟨t, hrun, hrest.idle, (congrArg DecoderView.st hdec).trans hu.st, hscript, htsrc, hout⟩
  · have hu := endsWith_wrongLength_start1 hst hx
    have hroom : s.cfg.minAvail ≤ s.src.length := by
      rw [hsrc, List.length_append, length_frame, hlen]
      omega
    obtain ⟨v, hrun, ⟨hrest, hvsrc, hscript, hout⟩, hdec⟩ := hu.run_feedStmt ⟨hi, hf, hquiet⟩ hsrc (fun _ => hroom) hq
    have hvst : v.st = .start1 := (congrArg DecoderView.st hdec).trans hu.st
    have hcfg : v.cfg = s.cfg := (congrArg DecoderView.cfg hdec).trans hu.cfg
    obtain ⟨k, t, hrun', ⟨hrest', htsrc, hscript', hout'⟩, -⟩ := run_validFrame (r := r) (rest := []) hrest hvst (hcfg ▸ hlen)
      (hcfg ▸ hguard) (by rw [hvsrc, hcfg, List.append_nil]) hscript
    refine ⟨_, t, (run_add k hrun).trans hrun', hrest'.idle, hscript', htsrc, ?_⟩
    rw [hout', hout, List.append_assoc]
    rfl

/-- A FEED over an empty source returns at once. -/
theorem run_emptySource {q : List Stmt} {s : State} (hs : s.Resting) (hsrc : s.src = []) (hq : s.script = feedStmt :: q) :
    ∃ t, run 1 s = .next t ∧ Returned .needMoreData [] { s with script := q } t := by
  have hfeeds := hs.feedsIn hq
  have hempty : (deliver s).src = [] := (deliver_src_of_quiet hs.quiet).trans hsrc
  have hno : mayRead { deliver s with script := q } = false := by
    rw [← Bool.not_eq_true, mayRead_iff]
    exact fun h => h.2 hempty
  have hstep := hfeeds.step.trans (exec_feed_returns hno)
  have hquiet : (endFeed .needMoreData { deliver s with script := q }).quiet := by
    rw [State.quiet, endFeed_arrivals]
    exact hfeeds.quiet
  exact ⟨_, run_succ_of_next 0 hstep, ⟨everyStepKeepsTheInvariants s _ hs.inv hstep, by simp, hquiet⟩, by simpa using hempty, by simp,
    by simp⟩

/-- Settles O56, by the frames one after another: each is taken by one FEED, and the last FEED finds the source empty. -/
theorem backToBackFrames : Obligations.BackToBackFrames := by
  intro s records hi hf hst hquiet hguard hlen hsrc hq
  have hs : s.Resting := ⟨hi, hf, hquiet⟩
  clear hi hf hquiet
  induction records generalizing s with
  | nil =>
    obtain ⟨t, hrun, hrest, htsrc, hscript, hout⟩ := run_emptySource hs hsrc hq
    exact ⟨1, t, hrun, hscript, hrest.idle, htsrc, by simpa using hout⟩
  | cons r rs ih =>
    obtain ⟨hr, hrs⟩ := List.forall_mem_cons.mp hlen
    rw [List.flatMap_cons] at hsrc
    obtain ⟨j, v, hrun, ⟨hrest, hvsrc, hscript, hout⟩, hvst, hcfg⟩ := run_validFrame hs hst hr hguard hsrc hq
    obtain ⟨k, t, hrun', htq, htf, htsrc, htout⟩ := ih v hvst (hcfg ▸ hguard) (hcfg ▸ hrs) (by rw [hvsrc, hcfg]) hscript hrest
    refine ⟨j + k, t, (run_add k hrun).trans hrun', htq, htf, htsrc, ?_⟩
    rw [htout, hout]
    simp

end Sys2Proof.Machine

/-! PROOFS. Exceptions (60_exceptions.md): nothing traps, a step is refused only for the listed reasons, an error recovers within its own
step, and instances share nothing. -/

namespace Sys2Proof.Machine

/-! ### What a step runs -/

/-- Everything a step can run: FEED on the source the environment has appended to; a statement that cannot fail; or an ENCODE, a reserved
word or a CONFIG, which are the statements that may be refused. -/
theorem step_runs_cases (s : State) :
    (∃ u, s.Prepared u ∧ u.src = s.src ++ s.arrivals.head ∧ step s = exec .feed u) ∨
    (∃ u, s.Prepared u ∧ (step s = .next u ∨ step s = exec .reset u)) ∨
    (s.feeding = false ∧ ∃ q rest, s.script = q :: rest ∧
      ((∃ o, q = .command 0x01 o ∧ step s = exec .encode (lendAny o { deliver s with script := rest })) ∨
       (∃ w o, q = .command w o ∧ (opField w = 0b11#2 ∨ zeroField w ≠ 0) ∧ step s = .refused .reservedCommand) ∨
       (∃ n k r src, q = .config n k r src ∧ step s = runConfig n k r src { deliver s with script := rest }))) := by
  obtain ⟨-, hs⟩ | ⟨-, -, hs⟩ | ⟨hf, w, o, rest, hq, hs⟩ | ⟨-, bs, rest, -, hs⟩ | ⟨-, rest, -, hs⟩ | ⟨-, rest, -, hs⟩ |
    ⟨-, k, rest, -, hs⟩ | ⟨hf, n, k, r, src, rest, hq, hs⟩ := step_cases s
  · exact .inl ⟨deliver s, ⟨rfl, rfl, rfl, id⟩, rfl, hs⟩
  · exact .inr (.inl ⟨deliver s, ⟨rfl, rfl, rfl, id⟩, .inl hs⟩)
  · have hp := prepared_lendAny o rest s
    obtain ⟨-, hw⟩ | ⟨rfl, hw⟩ | ⟨-, hw⟩ | ⟨⟨h0, h1, h2⟩, hr⟩ := decodeCommand_cases w
    · exact .inr (.inl ⟨_, hp, .inr (hw ▸ hs)⟩)
    · exact .inr (.inr ⟨hf, _, rest, hq, .inl ⟨o, rfl, hw ▸ hs⟩⟩)
    · exact .inl ⟨_, hp, lendAny_src o _, hw ▸ hs⟩
    · have hreserved : opField w = 0b11#2 ∨ zeroField w ≠ 0 := by
        by_contra hn
        obtain ⟨ho, hz⟩ := not_or.mp hn
        exact (word_of_not_reserved ho (not_not.mp hz)).elim h0 (·.elim h1 h2)
      exact .inr (.inr ⟨hf, _, rest, hq, .inr (.inl ⟨w, o, rfl, hreserved, hs.trans (hr _)⟩)⟩)
  · exact .inr (.inl ⟨srcAppend bs { deliver s with script := rest }, ⟨rfl, rfl, rfl, id⟩, .inl hs⟩)
  · exact .inr (.inl ⟨pushDst { deliver s with script := rest }, ⟨rfl, rfl, rfl, id⟩, .inl hs⟩)
  · exact .inr (.inl ⟨{ deliver s with script := rest }, ⟨rfl, rfl, rfl, id⟩, .inl hs⟩)
  · exact .inl ⟨{ deliver s with script := rest, drainLeft := some k }, ⟨rfl, rfl, rfl, id⟩, rfl, hs⟩
  · exact .inr (.inr ⟨hf, _, rest, hq, .inr (.inr ⟨n, k, r, src, rfl, hs⟩)⟩)

/-! ### Refusals and faults (60_exceptions.md R180, R184) -/

/-- CONFIG's three answers; `N` is tested before the guard (log 17). -/
theorem runConfig_answers (n : Byte) (k : Option Nat) (r : Option Bool) (src : List Byte) (s : State) :
    (n = 0 ∧ runConfig n k r src s = .refused .zeroRecordSize) ∨
    (n ≠ 0 ∧ k = some 0 ∧ runConfig n k r src s = .refused .badParameter) ∨
    ∃ c, runConfig n k r src s = .next (newCodec c src s) := by
  unfold runConfig
  dsimp only
  split_ifs with hn hk
  · exact .inl ⟨hn, rfl⟩
  · cases k with
    | none => exact absurd hk (by decide)
    | some k => exact .inr (.inl ⟨hn, congrArg some hk, rfl⟩)
  · exact .inr (.inr ⟨_, rfl⟩)

/-- Settles O47: FEED completes under the invariants, and each statement that may be refused is refused for its own reason. -/
theorem refusedOnlyAsListed : Obligations.RefusedOnlyAsListed := by
  intro s hi
  obtain ⟨u, hp, -, hs⟩ | ⟨u, -, hs | hs⟩ | ⟨hf, q, rest, hq, hstmt⟩ := step_runs_cases s
  · obtain ⟨t, ht⟩ := exec_feed_completes (hi.prepared_feeding hp)
    exact .inl ⟨t, hs.trans ht⟩
  · exact .inl ⟨u, hs⟩
  · exact .inl ⟨_, hs⟩
  · obtain ⟨o, rfl, hs⟩ | ⟨w, o, rfl, hreserved, hs⟩ | ⟨n, k, r, src, rfl, hs⟩ := hstmt
    · obtain ⟨hlen, he⟩ | ⟨-, -, he⟩ | ⟨-, -, he⟩ := execEncode_cases (lendAny o { deliver s with script := rest })
      · refine .inr ⟨hf, _, rest, hq, .inr (.inl ⟨o, rfl, ?_, hs.trans he⟩)⟩
        cases o <;> exact hlen
      · exact .inl ⟨_, hs.trans he⟩
      · exact .inl ⟨_, hs.trans he⟩
    · exact .inr ⟨hf, _, rest, hq, .inl ⟨w, o, rfl, hreserved, hs⟩⟩
    · obtain ⟨rfl, hc⟩ | ⟨hn, rfl, hc⟩ | ⟨c, hc⟩ := runConfig_answers n k r src { deliver s with script := rest }
      · exact .inr ⟨hf, _, rest, hq, .inr (.inr (.inl ⟨k, r, src, rfl, hs.trans hc⟩))⟩
      · exact .inr ⟨hf, _, rest, hq, .inr (.inr (.inr ⟨n, r, src, rfl, hn, hs.trans hc⟩))⟩
      · exact .inl ⟨_, hs.trans hc⟩

/-- Settles O46: a step that does not go on is refused. -/
theorem nothingTraps : Obligations.NothingTraps := by
  intro s f hi hfault
  obtain ⟨t, hs⟩ | ⟨-, q, rest, -, ⟨_, _, -, -, hs⟩ | ⟨_, -, -, hs⟩ | ⟨_, _, _, -, hs⟩ | ⟨_, _, _, -, -, hs⟩⟩ :=
    refusedOnlyAsListed s hi <;> cases hfault.symm.trans hs

/-! ### Errors recover locally (60_exceptions.md R181) -/

/-- Between two states the decoder has rejected a frame: the results have grown by one of its two errors. -/
def State.RejectsFrame (s t : State) : Prop :=
  t.outputs = s.outputs ++ [.sizeMismatch] ∨ t.outputs = s.outputs ++ [.checksumMismatch]

/-- A transition that rejects a frame returns to AWAITING_START1 and leaves `record_out`. -/
theorem dstep_rejectsFrame {b : Byte} {s t : State} (h : dstep b s = .next t) (hr : s.RejectsFrame t) :
    ∃ o rx, t = endFeed o (returnToStart1 { s with rxBuf := rx }) := by
  obtain ⟨st, el, fc, rfl⟩ | ⟨-, rfl⟩ | ⟨-, -, rfl⟩ | ⟨-, -, rfl⟩ | ⟨-, -, r, rfl⟩ := runTransition_next _ b s t h
  · simp [State.RejectsFrame] at hr
  · exact ⟨_, s.rxBuf, rfl⟩
  · simp [State.RejectsFrame] at hr
  · exact ⟨_, _, rfl⟩
  · simp [State.RejectsFrame] at hr

/-- FEED's micro-step rejects a frame only with the byte it has read. -/
theorem execFeed_rejectsFrame {s t : State} (h : exec .feed s = .next t) (hr : s.RejectsFrame t) :
    ∃ b rest o rx, s.src = b :: rest ∧ t = endFeed o (returnToStart1 { s with feeding := true, src := rest, rxBuf := rx }) := by
  obtain ⟨-, hf⟩ | ⟨b, rest, hsrc, -, hf⟩ := execFeed_cases s <;> rw [hf] at h
  · cases h
    simp [State.RejectsFrame] at hr
  · obtain ⟨o, rx, rfl⟩ := dstep_rejectsFrame h hr
    exact ⟨b, rest, o, rx, hsrc, rfl⟩

/-- A step that rejects a frame is a micro-step of FEED: whatever else a step runs gives no such result. -/
theorem step_rejectsFrame {s t : State} (h : step s = .next t) (hr : s.RejectsFrame t) :
    ∃ u, s.Prepared u ∧ u.src = s.src ++ s.arrivals.head ∧ exec .feed u = .next t := by
  obtain ⟨u, hp, hsrc, hs⟩ | ⟨u, hp, hs | hs⟩ | ⟨-, q, rest, -, ⟨o, -, hs⟩ | ⟨_, _, -, -, hs⟩ | ⟨n, k, r, src, -, hs⟩⟩ :=
    step_runs_cases s <;> rw [hs] at h
  · exact ⟨u, hp, hsrc, h⟩
  · cases h
    simp [State.RejectsFrame, hp.outputs] at hr
  · cases h
    simp [State.RejectsFrame, hp.outputs] at hr
  · obtain ⟨-, he⟩ | ⟨-, -, he⟩ | ⟨-, -, he⟩ := execEncode_cases (lendAny o { deliver s with script := rest }) <;>
      rw [he] at h <;> cases h <;> simp [State.RejectsFrame] at hr
  · cases h
  · obtain ⟨-, hc⟩ | ⟨-, -, hc⟩ | ⟨c, hc⟩ := runConfig_answers n k r src { deliver s with script := rest } <;>
      rw [hc] at h <;> cases h
    simp [State.RejectsFrame] at hr

/-- Settles O49: an error of the decoder is the return to AWAITING_START1 with the byte that brought it, and BufferTooSmall comes before
anything is written. -/
theorem errorsRecoverLocally : Obligations.ErrorsRecoverLocally := by
  refine ⟨fun s t h hr => ?_, fun s t h ho => ?_⟩
  · obtain ⟨u, hp, hsrc, hu⟩ := step_rejectsFrame h hr
    have hru : u.RejectsFrame t := by simpa only [State.RejectsFrame, hp.outputs] using hr
    obtain ⟨b, rest, o, rx, hread, rfl⟩ := execFeed_rejectsFrame hu hru
    exact ⟨by simp, by simp, by simp, by simp, by simp [hp.recordOut], b, by simp [← hsrc, hread]⟩
  · obtain ⟨-, he⟩ | ⟨-, -, he⟩ | ⟨-, -, he⟩ := execEncode_cases s <;> rw [he] at h <;> cases h
    · rfl
    · simp at ho

/-! ### Instances share nothing (60_exceptions.md R191) -/

/-- A step at the place `j` changes what stands there and no other place. -/
theorem getElem?_stepAt (j k : Nat) (sys : System) :
    (stepAt j sys)[k]? = if j = k then sys[k]?.map stepOutcome else sys[k]? := by
  rw [stepAt, List.getElem?_modify]
  split_ifs <;> simp

/-- In every interleaving a place comes to what as many steps as it was given lead to from what stood there. -/
theorem getElem?_runSystem (order : List Nat) (k : Nat) (sys : System) :
    (runSystem order sys)[k]? = sys[k]?.map stepOutcome^[order.count k] := by
  induction order generalizing sys with
  | nil => simp [runSystem]
  | cons j order ih =>
    rw [runSystem, ih, getElem?_stepAt]
    split_ifs with h
    · subst h
      rw [List.count_cons_self, Option.map_map, Function.iterate_succ]
    · rw [List.count_cons_of_ne h]

/-- The steps a place is given are the run of its state, which a fault or a refusal ends. -/
theorem iterate_stepOutcome (n : Nat) (s : State) : stepOutcome^[n] (.next s) = run n s := by
  induction n generalizing s with
  | zero => rfl
  | succ n ih =>
    rw [Function.iterate_succ_apply, stepOutcome, run]
    cases step s with
    | next t => exact ih t
    | fault f => exact Function.iterate_fixed rfl n
    | refused r => exact Function.iterate_fixed rfl n

/-- A run that has ended stays as it is (log 16). -/
theorem stepOutcome_of_ended {o : Out} (h : ∀ s, o ≠ .next s) : stepOutcome o = o := by
  cases o with
  | next s => exact absurd rfl (h s)
  | fault f => rfl
  | refused r => rfl

/-- Settles O52: a step reads and writes one place, so what a place comes to depends on how many steps it is given and on no other
place. -/
theorem instancesShareNothing : Obligations.InstancesShareNothing := by
  refine ⟨fun j k sys hne => ?_, fun k sys s hs => ?_, fun k sys hn => ?_, fun j k sys => ?_, fun order k sys s hs => ?_⟩
  · rw [getElem?_stepAt, if_neg hne.symm]
  · rw [getElem?_stepAt, if_pos rfl, hs]
    rfl
  · apply List.ext_getElem?
    intro i
    rw [getElem?_stepAt]
    split_ifs with h
    · subst h
      cases ho : sys[k]? with
      | none => rfl
      | some o => exact congrArg some (stepOutcome_of_ended fun s hs => hn s (ho.trans (congrArg some hs)))
    · rfl
  · apply List.ext_getElem?
    intro i
    rw [getElem?_runSystem, getElem?_runSystem, (List.Perm.swap k j []).count_eq i]
  · rw [getElem?_runSystem, hs, Option.map_some, iterate_stepOutcome]

end Sys2Proof.Machine

/-! PROOFS. Creation (70_reset_and_hazards.md R210): what a CONFIG answers for each of its parameters, and what the instance it creates
holds. -/

namespace Sys2Proof.Machine

/-! ### CONFIG's answer for each of its parameters (60_exceptions.md R184) -/

theorem runConfig_zeroRecordSize (k : Option Nat) (r : Option Bool) (src : List Byte) (s : State) :
    runConfig 0 k r src s = .refused .zeroRecordSize := rfl

theorem runConfig_badParameter {n : Byte} (hn : n ≠ 0) (r : Option Bool) (src : List Byte) (s : State) :
    runConfig n (some 0) r src s = .refused .badParameter := by
  simp only [runConfig, if_neg hn, Option.getD_some, if_true]

/-- The guard is 0 only where it is written as 0: its default is 3 (00_scope.md R7). -/
theorem minAvail_ne_zero {k : Option Nat} (hk : k ≠ some 0) : k.getD Config.defaultMinAvail ≠ 0 := by
  cases k with
  | none => decide
  | some k => exact fun h => hk (congrArg some h)

theorem runConfig_creates {n : Byte} {k : Option Nat} (hn : n ≠ 0) (hk : k ≠ some 0) (r : Option Bool) (src : List Byte) (s : State) :
    runConfig n k r src s =
      .next (newCodec { n := n, minAvail := k.getD Config.defaultMinAvail, retest := r.getD Config.defaultRetest } src s) := by
  simp only [runConfig, if_neg hn, if_neg (minAvail_ne_zero hk)]

/-- Settles O14: a CONFIG is refused for its first illegal parameter, and with legal ones it makes the new codec, which keeps what
belongs to the caller. -/
theorem configCreatesAnInstance : Obligations.ConfigCreatesAnInstance := by
  intro s n k r src rest hf hq
  have hs : step s = runConfig n k r src { deliver s with script := rest } := step_issue s _ rest hf hq
  split_ifs with hn hk
  · rw [hs, hn, runConfig_zeroRecordSize]
  · rw [hs, hk, runConfig_badParameter hn]
  · refine ⟨_, hs.trans (runConfig_creates hn hk r src _), rfl, rfl, rfl, rfl, ?rxBuf, ?recordOut, rfl, rfl, rfl, rfl, rfl, rfl, rfl⟩
    case rxBuf => exact length_freeBytes _ _
    case recordOut => exact length_freeBytes _ _

end Sys2Proof.Machine
